-- ==== Sys2Proof/Word.lean ====
section
/-! DEFINITION. The two word sizes of the CHIP-8 CORE: the 8-bit byte of registers, timers and memory (00_scope.md R10, R17; 20_memory.md R70) and the 16-bit word of I, pc, stack entries and instructions (00_scope.md R11, R12; 30_encoding.md R100). -/

namespace Sys2Proof

/-- An 8-bit value: a general register, a timer, a memory byte. -/
abbrev Byte := BitVec 8

/-- A 16-bit value: I, pc, a stack entry, an instruction word. -/
abbrev Word := BitVec 16

/-- `zext_16` of 00_scope.md R20, for a byte. -/
abbrev zext16 (b : Byte) : Word := b.zeroExtend 16

end Sys2Proof
end

