-- ==== Sys2Proof/Syntax.lean ====
section
/-! DEFINITION. The instruction set: one constructor for each of the 35 rows of spec/opcode_table.json (30_encoding.md R110), with the operand fields of R102 and R103. -/

namespace Sys2Proof

/-- The number of a general register V0..VF, and of a key 0..F: every value 0..15 is valid (30_encoding.md R105). -/
abbrev Reg := Fin 16

/-- The 35 instructions of 30_encoding.md R110, in the table's order. `x` and `y` are the fields X and Y, `nn` is NN, `addr` is NNN widened to 16 bits (`zext_16(NNN)`, R104), `n` is the row count N. The field Y of 8XY6 and 8XYE is free and never read (R106); it is kept so that the word can be given back. -/
inductive Instr where
  | nop                                  -- 0000
  | cls                                  -- 00E0
  | ret                                  -- 00EE
  | jp (addr : Word)                     -- 1NNN
  | call (addr : Word)                   -- 2NNN
  | seByte (x : Reg) (nn : Byte)         -- 3XNN
  | sneByte (x : Reg) (nn : Byte)        -- 4XNN
  | seReg (x y : Reg)                    -- 5XY0
  | ldByte (x : Reg) (nn : Byte)         -- 6XNN
  | addByte (x : Reg) (nn : Byte)        -- 7XNN
  | ldReg (x y : Reg)                    -- 8XY0
  | or (x y : Reg)                       -- 8XY1
  | and (x y : Reg)                      -- 8XY2
  | xor (x y : Reg)                      -- 8XY3
  | addReg (x y : Reg)                   -- 8XY4
  | sub (x y : Reg)                      -- 8XY5
  | shr (x y : Reg)                      -- 8XY6
  | subn (x y : Reg)                     -- 8XY7
  | shl (x y : Reg)                      -- 8XYE
  | sneReg (x y : Reg)                   -- 9XY0
  | ldI (addr : Word)                    -- ANNN
  | jpV0 (addr : Word)                   -- BNNN
  | rnd (x : Reg) (nn : Byte)            -- CXNN
  | drw (x y : Reg) (n : Nat)            -- DXYN
  | skp (x : Reg)                        -- EX9E
  | sknp (x : Reg)                       -- EXA1
  | ldVxDt (x : Reg)                     -- FX07
  | ldVxK (x : Reg)                      -- FX0A
  | ldDt (x : Reg)                       -- FX15
  | ldSt (x : Reg)                       -- FX18
  | addI (x : Reg)                       -- FX1E
  | ldF (x : Reg)                        -- FX29
  | ldB (x : Reg)                        -- FX33
  | ldStore (x : Reg)                    -- FX55
  | ldLoad (x : Reg)                     -- FX65
deriving DecidableEq, Repr

end Sys2Proof
end

