-- ==== Sys2Proof/WellFormed.lean ====
section
/-! DEFINITION. Which terms of `Instr` are instructions: an address operand is 0x000..0xFFF and a row count 0..15 (30_encoding.md R104, R117). Register and byte operands are in range by their types (R105). -/

namespace Sys2Proof

/-- An address operand fits the 12 bits of NNN (30_encoding.md R104, R117). -/
def addrOk (addr : Word) : Bool := addr.toNat < 0x1000

/-- A row count fits the 4 bits of N (30_encoding.md R104, R117). -/
def rowsOk (n : Nat) : Bool := n < 16

/-- Every operand is one its field can hold. -/
def Instr.wellFormed : Instr → Bool
  | .jp addr => addrOk addr
  | .call addr => addrOk addr
  | .ldI addr => addrOk addr
  | .jpV0 addr => addrOk addr
  | .drw _ _ n => rowsOk n
  | .nop | .cls | .ret => true
  | .seByte _ _ | .sneByte _ _ | .ldByte _ _ | .addByte _ _ | .rnd _ _ => true
  | .seReg _ _ | .sneReg _ _ | .ldReg _ _ | .or _ _ | .and _ _ | .xor _ _ => true
  | .addReg _ _ | .sub _ _ | .shr _ _ | .subn _ _ | .shl _ _ => true
  | .skp _ | .sknp _ | .ldVxDt _ | .ldVxK _ | .ldDt _ | .ldSt _ => true
  | .addI _ | .ldF _ | .ldB _ | .ldStore _ | .ldLoad _ => true

end Sys2Proof
end

