-- ==== Sys2Proof/Decode.lean ====
section
/-! DEFINITION. The Decoder of 30_encoding.md: the fields (R101, R102), the decode procedure (R107, R108) total on every word and on any bytes, rejecting the unknown words by their class of R111; then the encoder (R118), the rows of the opcode table as data (R110), and the word numbering of spec/opcode_table.json. -/

namespace Sys2Proof

/-! ## Fields -/

/-- `w[hi:lo]`: the unsigned value of bits hi down to lo (00_scope.md R19). -/
def bits (w : Word) (hi lo : Nat) : Nat := w.toNat / 2 ^ lo % 2 ^ (hi - lo + 1)

/-- `OP = w[15:12]` (30_encoding.md R102). -/
def fieldOp (w : Word) : Nat := bits w 15 12

/-- `X = w[11:8]` (30_encoding.md R102). -/
def fieldX (w : Word) : Reg := Fin.ofNat 16 (bits w 11 8)

/-- `Y = w[7:4]` (30_encoding.md R102). -/
def fieldY (w : Word) : Reg := Fin.ofNat 16 (bits w 7 4)

/-- `N = w[3:0]` (30_encoding.md R102). -/
def fieldN (w : Word) : Nat := bits w 3 0

/-- `NN = w[7:0]` (30_encoding.md R102). -/
def fieldNN (w : Word) : Byte := BitVec.ofNat 8 (bits w 7 0)

/-- `zext_16(NNN)` with `NNN = w[11:0]` (30_encoding.md R102, R104). -/
def fieldNNN (w : Word) : Word := BitVec.ofNat 16 (bits w 11 0)

/-! ## Decoding -/

/-- The six classes of unknown words (30_encoding.md R111). -/
inductive UnknownClass where
  /-- 0NNN other than 0000, 00E0, 00EE. -/
  | sys
  /-- 5XYN with N ≠ 0. -/
  | skipEq
  /-- 8XYN with N in 8, 9, A, B, C, D, F. -/
  | alu
  /-- 9XYN with N ≠ 0. -/
  | skipNe
  /-- EXNN with NN not 9E, A1. -/
  | keys
  /-- FXNN with NN not 07, 0A, 15, 18, 1E, 29, 33, 55, 65. -/
  | misc
deriving DecidableEq, Repr

/-- Why bytes are no instruction. -/
inductive Reject where
  /-- The word matches no row of the table (30_encoding.md R107, R111). -/
  | unknown (c : UnknownClass) (w : Word)
  /-- Fewer than the two bytes every instruction has (30_encoding.md R100). -/
  | tooShort
deriving DecidableEq, Repr

/-- The decode procedure of 30_encoding.md R108. -/
def decode (w : Word) : Except Reject Instr :=
  match fieldOp w with
  | 0x0 =>
    if w = 0x0000 then .ok .nop
    else if w = 0x00E0 then .ok .cls
    else if w = 0x00EE then .ok .ret
    else .error (.unknown .sys w)
  | 0x1 => .ok (.jp (fieldNNN w))
  | 0x2 => .ok (.call (fieldNNN w))
  | 0x3 => .ok (.seByte (fieldX w) (fieldNN w))
  | 0x4 => .ok (.sneByte (fieldX w) (fieldNN w))
  | 0x5 => if fieldN w = 0 then .ok (.seReg (fieldX w) (fieldY w)) else .error (.unknown .skipEq w)
  | 0x6 => .ok (.ldByte (fieldX w) (fieldNN w))
  | 0x7 => .ok (.addByte (fieldX w) (fieldNN w))
  | 0x8 =>
    match fieldN w with
    | 0x0 => .ok (.ldReg (fieldX w) (fieldY w))
    | 0x1 => .ok (.or (fieldX w) (fieldY w))
    | 0x2 => .ok (.and (fieldX w) (fieldY w))
    | 0x3 => .ok (.xor (fieldX w) (fieldY w))
    | 0x4 => .ok (.addReg (fieldX w) (fieldY w))
    | 0x5 => .ok (.sub (fieldX w) (fieldY w))
    | 0x6 => .ok (.shr (fieldX w) (fieldY w))
    | 0x7 => .ok (.subn (fieldX w) (fieldY w))
    | 0xE => .ok (.shl (fieldX w) (fieldY w))
    | _ => .error (.unknown .alu w)
  | 0x9 => if fieldN w = 0 then .ok (.sneReg (fieldX w) (fieldY w)) else .error (.unknown .skipNe w)
  | 0xA => .ok (.ldI (fieldNNN w))
  | 0xB => .ok (.jpV0 (fieldNNN w))
  | 0xC => .ok (.rnd (fieldX w) (fieldNN w))
  | 0xD => .ok (.drw (fieldX w) (fieldY w) (fieldN w))
  | 0xE =>
    if fieldNN w = 0x9E then .ok (.skp (fieldX w))
    else if fieldNN w = 0xA1 then .ok (.sknp (fieldX w))
    else .error (.unknown .keys w)
  | _ =>
    if fieldNN w = 0x07 then .ok (.ldVxDt (fieldX w))
    else if fieldNN w = 0x0A then .ok (.ldVxK (fieldX w))
    else if fieldNN w = 0x15 then .ok (.ldDt (fieldX w))
    else if fieldNN w = 0x18 then .ok (.ldSt (fieldX w))
    else if fieldNN w = 0x1E then .ok (.addI (fieldX w))
    else if fieldNN w = 0x29 then .ok (.ldF (fieldX w))
    else if fieldNN w = 0x33 then .ok (.ldB (fieldX w))
    else if fieldNN w = 0x55 then .ok (.ldStore (fieldX w))
    else if fieldNN w = 0x65 then .ok (.ldLoad (fieldX w))
    else .error (.unknown .misc w)

/-! ## Bytes -/

/-- `hi ++ lo`: the byte at the lower address is the high byte (00_scope.md R20; 20_memory.md R77). -/
def joinBytes (hi lo : Byte) : Word := BitVec.ofNat 16 (hi.toNat * 256 + lo.toNat)

/-- The high byte of a word, stored at the lower address (20_memory.md R77). -/
def highByte (w : Word) : Byte := BitVec.ofNat 8 (bits w 15 8)

/-- The low byte of a word, stored at the higher address (20_memory.md R77). -/
def lowByte (w : Word) : Byte := BitVec.ofNat 8 (bits w 7 0)

/-- Decode the instruction at the front of a byte sequence, and give the bytes after it. -/
def decodeBytes : List Byte → Except Reject (Instr × List Byte)
  | hi :: lo :: rest =>
    match decode (joinBytes hi lo) with
    | .ok i => .ok (i, rest)
    | .error e => .error e
  | _ => .error .tooShort

/-! ## Encoding -/

/-- `match | (X << 8) | NN`, the form `xnn`, and `x` with NN fixed (30_encoding.md R118). -/
def formXnn (pat : Word) (x : Reg) (nn : Byte) : Word :=
  pat ||| (BitVec.ofNat 16 x.val <<< 8) ||| zext16 nn

/-- `match | (X << 8) | (Y << 4) | N`, the forms `xyn` and `xy` (30_encoding.md R118). -/
def formXyn (pat : Word) (x y : Reg) (n : Nat) : Word :=
  pat ||| (BitVec.ofNat 16 x.val <<< 8) ||| (BitVec.ofNat 16 y.val <<< 4) ||| BitVec.ofNat 16 n

/-- `match | NNN`, the form `nnn` (30_encoding.md R118). -/
def formNnn (pat addr : Word) : Word := pat ||| addr

/-- The word of a well-formed instruction (30_encoding.md R110, R118). -/
def encode : Instr → Word
  | .nop => 0x0000
  | .cls => 0x00E0
  | .ret => 0x00EE
  | .jp addr => formNnn 0x1000 addr
  | .call addr => formNnn 0x2000 addr
  | .seByte x nn => formXnn 0x3000 x nn
  | .sneByte x nn => formXnn 0x4000 x nn
  | .seReg x y => formXyn 0x5000 x y 0x0
  | .ldByte x nn => formXnn 0x6000 x nn
  | .addByte x nn => formXnn 0x7000 x nn
  | .ldReg x y => formXyn 0x8000 x y 0x0
  | .or x y => formXyn 0x8000 x y 0x1
  | .and x y => formXyn 0x8000 x y 0x2
  | .xor x y => formXyn 0x8000 x y 0x3
  | .addReg x y => formXyn 0x8000 x y 0x4
  | .sub x y => formXyn 0x8000 x y 0x5
  | .shr x y => formXyn 0x8000 x y 0x6
  | .subn x y => formXyn 0x8000 x y 0x7
  | .shl x y => formXyn 0x8000 x y 0xE
  | .sneReg x y => formXyn 0x9000 x y 0x0
  | .ldI addr => formNnn 0xA000 addr
  | .jpV0 addr => formNnn 0xB000 addr
  | .rnd x nn => formXnn 0xC000 x nn
  | .drw x y n => formXyn 0xD000 x y n
  | .skp x => formXnn 0xE000 x 0x9E
  | .sknp x => formXnn 0xE000 x 0xA1
  | .ldVxDt x => formXnn 0xF000 x 0x07
  | .ldVxK x => formXnn 0xF000 x 0x0A
  | .ldDt x => formXnn 0xF000 x 0x15
  | .ldSt x => formXnn 0xF000 x 0x18
  | .addI x => formXnn 0xF000 x 0x1E
  | .ldF x => formXnn 0xF000 x 0x29
  | .ldB x => formXnn 0xF000 x 0x33
  | .ldStore x => formXnn 0xF000 x 0x55
  | .ldLoad x => formXnn 0xF000 x 0x65

/-- The two bytes of an instruction, high byte first (30_encoding.md R100; 20_memory.md R77). -/
def encodeBytes (i : Instr) : List Byte := [highByte (encode i), lowByte (encode i)]

/-! ## The opcode table as data -/

/-- A row of 30_encoding.md R110: a word w selects it when `w &&& mask = pat`. -/
structure OpcodeRow where
  pat : Word
  mask : Word
deriving DecidableEq, Repr

/-- The word `w` selects the row (30_encoding.md R110). -/
def OpcodeRow.selects (r : OpcodeRow) (w : Word) : Bool := w &&& r.mask == r.pat

/-- The row of 30_encoding.md R110 an instruction belongs to: its match and mask columns. -/
def opcodeRow : Instr → OpcodeRow
  | .nop => ⟨0x0000, 0xFFFF⟩
  | .cls => ⟨0x00E0, 0xFFFF⟩
  | .ret => ⟨0x00EE, 0xFFFF⟩
  | .jp _ => ⟨0x1000, 0xF000⟩
  | .call _ => ⟨0x2000, 0xF000⟩
  | .seByte _ _ => ⟨0x3000, 0xF000⟩
  | .sneByte _ _ => ⟨0x4000, 0xF000⟩
  | .seReg _ _ => ⟨0x5000, 0xF00F⟩
  | .ldByte _ _ => ⟨0x6000, 0xF000⟩
  | .addByte _ _ => ⟨0x7000, 0xF000⟩
  | .ldReg _ _ => ⟨0x8000, 0xF00F⟩
  | .or _ _ => ⟨0x8001, 0xF00F⟩
  | .and _ _ => ⟨0x8002, 0xF00F⟩
  | .xor _ _ => ⟨0x8003, 0xF00F⟩
  | .addReg _ _ => ⟨0x8004, 0xF00F⟩
  | .sub _ _ => ⟨0x8005, 0xF00F⟩
  | .shr _ _ => ⟨0x8006, 0xF00F⟩
  | .subn _ _ => ⟨0x8007, 0xF00F⟩
  | .shl _ _ => ⟨0x800E, 0xF00F⟩
  | .sneReg _ _ => ⟨0x9000, 0xF00F⟩
  | .ldI _ => ⟨0xA000, 0xF000⟩
  | .jpV0 _ => ⟨0xB000, 0xF000⟩
  | .rnd _ _ => ⟨0xC000, 0xF000⟩
  | .drw _ _ _ => ⟨0xD000, 0xF000⟩
  | .skp _ => ⟨0xE09E, 0xF0FF⟩
  | .sknp _ => ⟨0xE0A1, 0xF0FF⟩
  | .ldVxDt _ => ⟨0xF007, 0xF0FF⟩
  | .ldVxK _ => ⟨0xF00A, 0xF0FF⟩
  | .ldDt _ => ⟨0xF015, 0xF0FF⟩
  | .ldSt _ => ⟨0xF018, 0xF0FF⟩
  | .addI _ => ⟨0xF01E, 0xF0FF⟩
  | .ldF _ => ⟨0xF029, 0xF0FF⟩
  | .ldB _ => ⟨0xF033, 0xF0FF⟩
  | .ldStore _ => ⟨0xF055, 0xF0FF⟩
  | .ldLoad _ => ⟨0xF065, 0xF0FF⟩

/-- One instruction of each row of the table, in the table's order (30_encoding.md R110). -/
def rowSamples : List Instr :=
  [.nop, .cls, .ret, .jp 0, .call 0, .seByte 0 0, .sneByte 0 0, .seReg 0 0, .ldByte 0 0, .addByte 0 0] ++
  [.ldReg 0 0, .or 0 0, .and 0 0, .xor 0 0, .addReg 0 0, .sub 0 0, .shr 0 0, .subn 0 0, .shl 0 0, .sneReg 0 0] ++
  [.ldI 0, .jpV0 0, .rnd 0 0, .drw 0 0 0, .skp 0, .sknp 0, .ldVxDt 0, .ldVxK 0, .ldDt 0, .ldSt 0] ++
  [.addI 0, .ldF 0, .ldB 0, .ldStore 0, .ldLoad 0]

/-- The 35 rows of 30_encoding.md R110, in the table's order. -/
def opcodeTable : List OpcodeRow := rowSamples.map opcodeRow

/-! ## The table's word numbering -/

/-- The instruction the decoder reads from a word numbered as spec/opcode_table.json numbers it: bit 0 is the least significant bit of the one 16-bit word; bits above `nbits` are 0. -/
def decodeTableWord (nbits w : Nat) : Option Instr :=
  let word := BitVec.ofNat 16 (w % 2 ^ nbits)
  match decodeBytes [highByte word, lowByte word] with
  | .ok (i, _) => some i
  | .error _ => none

end Sys2Proof
end

