-- ==== Sys2Proof/Config.lean ====
section
/-! DEFINITION. What one CHIP-8 CORE fixes: the sizes of 00_scope.md R9 to R16, the two configuration parameters of R18 (FONT and ERR_COMMIT_PC), and the two draws of R18 (RNG and KEY_PICK) as free values. -/

namespace Sys2Proof.Config

/-- `MEM_SIZE` (00_scope.md R9): valid addresses are 0 to 4095. -/
@[reducible, simp] def memSize : Nat := 4096

/-- `FONT_SIZE` (00_scope.md R15): the font table is bytes [0, 80). -/
@[reducible, simp] def fontSize : Nat := 80

/-- `GLYPH_BYTES` (00_scope.md R15): glyph n stands at address 5n. -/
@[reducible, simp] def glyphBytes : Nat := 5

/-- `PROG_BASE` (00_scope.md R16). -/
@[reducible, simp] def progBase : Nat := 0x200

/-- `MAX_LOAD` (00_scope.md R16): 4096 − 0x200 bytes. -/
@[reducible, simp] def maxLoad : Nat := 3584

/-- `STACK_DEPTH` (00_scope.md R12). -/
@[reducible, simp] def stackDepth : Nat := 16

/-- `DISP_W` (00_scope.md R13). -/
@[reducible, simp] def dispW : Nat := 64

/-- `DISP_H` (00_scope.md R13). -/
@[reducible, simp] def dispH : Nat := 32

/-- The parameter `FONT` (00_scope.md R18): 80 bytes at [0, 80). -/
abbrev Font := Vector Byte 80

/-- The parameter `ERR_COMMIT_PC` (00_scope.md R18): whether a tick that fails after a successful fetch keeps pc advanced. -/
inductive ErrCommitPc where
  | advance
  | restore
deriving DecidableEq, Repr

/-- The configuration parameters of 00_scope.md R18. They are arguments of the host operations and no part of State (10_state.md R43 (d)). -/
structure Params where
  font : Font
  errCommitPc : ErrCommitPc
deriving DecidableEq, Repr

/-- The draw `RNG` (00_scope.md R18; 40_interface_fetch_decode.md R142; D15): the n-th random byte. FREE VALUE: no body, any value for each n (log entry 3). -/
opaque rng : Nat → Byte

/-- The draw `KEY_PICK` (00_scope.md R18; 40_interface_fetch_decode.md R142; D11): the n-th choice, reduced to a choice among the pressed keys where it is used. FREE VALUE: no body (log entry 4). -/
opaque keyPick : Nat → Nat

end Sys2Proof.Config
end

