-- ==== Sys2Proof/Machine/State.lean ====
section
/-! DEFINITION. The architectural state of the CHIP-8 CORE (10_state.md R30), its reset value (R46; 70_reset_and_hazards.md R340), the six error kinds of a tick (60_exceptions.md R310) and the refusals. -/

namespace Sys2Proof.Machine

/-- MEM (10_state.md R31) as a sparse list of (address, byte) pairs: addresses strictly rising, none equal to what an unlisted address reads as. What an unlisted address reads as is `unlistedByte` (Machine/Ops.lean). -/
abbrev Memory := List Host.Cell

/-- FB (10_state.md R41): 32 rows of 64 one-bit cells; `FB[y * 64 + x]` is bit x of row y (log entry 10). -/
abbrev Framebuffer := Vector (BitVec 64) 32

/-- The six errors a tick can report, with the info each records (60_exceptions.md R310). An error is the fault outcome of the tick (R319); every one is safe: the model stops where the spec says the tick reports the error, and `afterError` (Machine/Ops.lean) gives the state the host finds afterwards. -/
inductive Fault where
  /-- Raised by `step` at decode when the word matches no row of the table (30_encoding.md R112). Safe. -/
  | unknownOpcode (w aIns : Word)
  /-- Raised by CALL with SP = 16 (41_control.md R181). Safe. -/
  | stackOverflow (aIns : Word)
  /-- Raised by RET with SP = 0 (41_control.md R182). Safe. -/
  | stackUnderflow (aIns : Word)
  /-- Raised by the fetch, DRW, LD_B, LD_store and LD_load at an address of 4096 or more (20_memory.md R72 to R74). Safe. -/
  | outOfBounds (addr : Nat) (aIns : Word)
  /-- Raised by LD_B and LD_store writing an address below 80 (20_memory.md R73). Safe. -/
  | readOnlyWrite (addr : Nat) (aIns : Word)
  /-- Raised by SKP and SKNP with VX above 15 (45_timers_keys.md R281, R282). Safe. -/
  | badKeyIndex (value : Byte) (aIns : Word)
deriving DecidableEq, Repr

/-- What has no step. -/
inductive Refusal where
  /-- Raised by `exec` for an instruction with no meaning yet, by its mnemonic: none in this model. Safe. -/
  | notModelled (mnemonic : String)
  /-- Raised by the host operation `set_key` with an index above 15 (45_timers_keys.md R295), never by `step`. Safe. -/
  | keyIndexOutOfRange (index : Nat)
  /-- Raised by the host operation `load` with more than 3584 bytes (70_reset_and_hazards.md R344), never by `step`. Safe. -/
  | loadTooLong (len : Nat)
  /-- Raised by the host operation `tick` when FX0A meets two or more pressed keys and the given key draw is not one of them (the constraint of 40_interface_fetch_decode.md R142), never by `step`. Safe. -/
  | keyDrawNotPressed (kp : Reg)
deriving DecidableEq, Repr

/-- The state record (10_state.md R30). `draws` is the model's own: the index of the next free draw (log entry 3). -/
structure State where
  /-- MEM[0..4095] (R31). -/
  mem : Memory
  /-- x[0..15], V0..VF (R32). -/
  v : Vector Byte 16
  /-- I (R34). -/
  i : Word
  /-- pc (R35). -/
  pc : Word
  /-- STACK[0..15] (R37). -/
  stack : Vector Word 16
  /-- SP, 0 to 16: the depth (R37). -/
  sp : Fin 17
  /-- DT (R39). -/
  dt : Byte
  /-- ST (R39). -/
  st : Byte
  /-- KEY[0..15] (R40). -/
  key : Vector Bool 16
  /-- FB[0..2047] (R41). -/
  fb : Framebuffer
  /-- AWAIT (R42). -/
  await : Bool
  /-- The model's own: how many free draws have been read (log entry 3). -/
  draws : Nat
deriving DecidableEq, Repr

/-- The canonical state of `new()` and `reset()` (10_state.md R46; 70_reset_and_hazards.md R340): memory lists nothing, so that it reads as FONT and zeros. -/
def State.reset : State where
  mem := []
  v := Vector.replicate 16 0
  i := 0
  pc := 0x200
  stack := Vector.replicate 16 0
  sp := 0
  dt := 0
  st := 0
  key := Vector.replicate 16 false
  fb := Vector.replicate 32 0
  await := false
  draws := 0

end Sys2Proof.Machine
end

