-- ==== Sys2Proof/Machine/Ops.lean ====
section
/-! DEFINITION. The named operations over memory, registers, stack, framebuffer, keypad and program counter that the meanings share, the Fetch Unit, and what a tick that reports an error leaves (60_exceptions.md R316). -/

namespace Sys2Proof.Machine

open Sys2Proof.Config

/-! ## What memory reads as before anything is written -/

/-- The default FONT (10_state.md R36): glyph n at 5n, marked `[from general knowledge, not in source]` by the spec. PRESUMED (log entry 1). -/
def fontTable : List Byte :=
  [0xF0, 0x90, 0x90, 0x90, 0xF0] ++ [0x20, 0x60, 0x20, 0x20, 0x70] ++
  [0xF0, 0x10, 0xF0, 0x80, 0xF0] ++ [0xF0, 0x10, 0xF0, 0x10, 0xF0] ++
  [0x90, 0x90, 0xF0, 0x10, 0x10] ++ [0xF0, 0x80, 0xF0, 0x10, 0xF0] ++
  [0xF0, 0x80, 0xF0, 0x90, 0xF0] ++ [0xF0, 0x10, 0x20, 0x40, 0x40] ++
  [0xF0, 0x90, 0xF0, 0x90, 0xF0] ++ [0xF0, 0x90, 0xF0, 0x10, 0xF0] ++
  [0xF0, 0x90, 0xF0, 0x90, 0x90] ++ [0xE0, 0x90, 0xE0, 0x90, 0xE0] ++
  [0xF0, 0x80, 0x80, 0x80, 0xF0] ++ [0xE0, 0x90, 0x90, 0x90, 0xE0] ++
  [0xF0, 0x80, 0xF0, 0x80, 0xF0] ++ [0xF0, 0x80, 0xF0, 0x80, 0x80]

/-- The default FONT as the parameter's type. -/
def defaultFont : Font := Vector.ofFn fun k => fontTable.getD k.val 0

/-- What an unlisted address reads as: FONT below 80, 0 from 80 on (10_state.md R46). -/
def unlistedByte (a : Nat) : Byte := if a < fontSize then fontTable.getD a 0 else 0

/-! ## Memory -/

/-- MEM[a]. -/
def Memory.read : Memory → Nat → Byte
  | [], a => unlistedByte a
  | (k, b) :: m, a => if a = k then b else Memory.read m a

/-- The list with the byte b at a, in canonical form: no entry where b is what an unlisted address reads as. -/
def Memory.write : Memory → Nat → Byte → Memory
  | [], a, b => if b = unlistedByte a then [] else [(a, b)]
  | (k, c) :: m, a, b =>
    if a < k then
      if b = unlistedByte a then (k, c) :: m else (a, b) :: (k, c) :: m
    else if a = k then
      if b = unlistedByte a then m else (a, b) :: m
    else (k, c) :: Memory.write m a b

/-- One-byte writes at consecutive increasing addresses (20_memory.md R76). -/
def Memory.store : Memory → Nat → List Byte → Memory
  | m, _, [] => m
  | m, a, b :: bs => Memory.store (m.write a b) (a + 1) bs

/-- The canonical form: addresses strictly rising and below 4096 (20_memory.md R70), no entry equal to what an unlisted address reads as. -/
abbrev Memory.wf (m : Memory) : Prop :=
  m.Pairwise (fun c d => c.1 < d.1) ∧ ∀ c ∈ m, c.1 < memSize ∧ c.2 ≠ unlistedByte c.1

/-! ## Checks of the memory ports -/

/-- The check of `MemRead(a, 1)` and of `FetchRead(a)` (20_memory.md R72, R74). -/
def readFault (aIns : Word) (a : Nat) : Option Fault :=
  if memSize ≤ a then some (.outOfBounds a aIns) else none

/-- The check of `MemWrite(a, 1, v)` (20_memory.md R73). -/
def writeFault (aIns : Word) (a : Nat) : Option Fault :=
  if memSize ≤ a then some (.outOfBounds a aIns)
  else if a < fontSize then some (.readOnlyWrite a aIns)
  else none

/-- The first of the n addresses base, base + 1, … whose check fails, in increasing order (43_index_memory.md R247). Addresses are naturals and never wrap (20_memory.md R71). -/
def firstFault (check : Nat → Option Fault) (base n : Nat) : Option Fault :=
  (List.range n).findSome? fun k => check (base + k)

/-- The checks of an n-byte read at base. -/
def readFaults (aIns : Word) (base n : Nat) : Option Fault := firstFault (readFault aIns) base n

/-- The checks of an n-byte write at base. -/
def writeFaults (aIns : Word) (base n : Nat) : Option Fault := firstFault (writeFault aIns) base n

/-! ## Registers -/

/-- VF, register 15 (10_state.md R33). -/
def vf : Reg := 15

/-- `x[r]`. -/
def State.reg (s : State) (r : Reg) : Byte := s.v[r.val]

/-- `x[r] <- b`. -/
def State.setReg (s : State) (r : Reg) (b : Byte) : State := { s with v := s.v.set r.val b }

/-- `I <- w`. -/
def State.setI (s : State) (w : Word) : State := { s with i := w }

/-- `pc <- w`. -/
def State.setPc (s : State) (w : Word) : State := { s with pc := w }

/-- `DT <- b`. -/
def State.setDt (s : State) (b : Byte) : State := { s with dt := b }

/-- `ST <- b`. -/
def State.setSt (s : State) (b : Byte) : State := { s with st := b }

/-- `AWAIT <- b`. -/
def State.setAwait (s : State) (b : Bool) : State := { s with await := b }

/-- The whole framebuffer replaced. -/
def State.setFb (s : State) (f : Framebuffer) : State := { s with fb := f }

/-- `KEY[k] <- b`. -/
def State.setKeyAt (s : State) (k : Reg) (b : Bool) : State := { s with key := s.key.set k.val b }

/-- The model's own: one free draw has been read (log entry 3). -/
def State.nextDraw (s : State) : State := { s with draws := s.draws + 1 }

/-- One-byte writes of the bytes at base, base + 1, …; the checks are the caller's (20_memory.md R85). -/
def State.storeBytes (s : State) (base : Nat) (bs : List Byte) : State :=
  { s with mem := s.mem.store base bs }

/-- The registers V0..VX in order (43_index_memory.md R245). -/
def State.regsUpTo (s : State) (x : Reg) : List Byte := s.v.toList.take (x.val + 1)

/-- `x[k] <- MEM[base + k]` for k in 0..X; the checks are the caller's (43_index_memory.md R246). -/
def State.loadRegs (s : State) (x : Reg) (base : Nat) : State :=
  { s with v := Vector.ofFn fun k => if k.val ≤ x.val then s.mem.read (base + k.val) else s.v[k.val] }

/-- `KEY[k]` (10_state.md R40). -/
def State.pressed (s : State) (k : Reg) : Bool := s.key[k.val]

/-! ## Program counter -/

/-- `a_ins`: inside an instruction rule pc is the instruction's address plus 2 (00_scope.md R25). -/
def State.aIns (s : State) : Word := s.pc - 2

/-- The skip `pc <- (pc + 2) mod 2^16` (41_control.md R183). -/
def State.skip (s : State) : State := s.setPc (s.pc + 2)

/-- Skip when the condition holds. -/
def State.skipIf (s : State) (c : Bool) : State := if c then s.skip else s

/-! ## Stack Unit -/

/-- `push(w)` (41_control.md R181): a push at depth 16 raises StackOverflow and writes nothing. -/
def State.push (s : State) (w : Word) : Except Fault State :=
  if h : s.sp.val < stackDepth then
    .ok { s with stack := s.stack.set s.sp.val w, sp := ⟨s.sp.val + 1, Nat.succ_lt_succ h⟩ }
  else .error (.stackOverflow s.aIns)

/-- `pop()` (41_control.md R182): the popped value and the state; a pop at depth 0 raises StackUnderflow and writes nothing; the entry keeps its value (10_state.md R38). -/
def State.pop (s : State) : Except Fault (Word × State) :=
  if h : s.sp.val = 0 then .error (.stackUnderflow s.aIns)
  else .ok (s.stack[s.sp.val - 1], { s with sp := ⟨s.sp.val - 1, by omega⟩ })

/-! ## Framebuffer cells -/

/-- `FB[p]` (10_state.md R41). -/
def Framebuffer.cell (f : Framebuffer) (p : Nat) : Bool := ((f[p / dispW]?).getD 0).getLsbD (p % dispW)

/-- `FB[p] <- FB[p] ^ 1` (44_display.md R262). -/
def Framebuffer.toggle (f : Framebuffer) (p : Nat) : Framebuffer :=
  f.setIfInBounds (p / dispW) ((f[p / dispW]?).getD 0 ^^^ BitVec.twoPow 64 (p % dispW))

/-- Every cell 0 (44_display.md R261). -/
def Framebuffer.blank : Framebuffer := Vector.replicate 32 0

/-- The index of the pixel at column x and row y, each axis wrapped on its own (10_state.md R41; 44_display.md R262, R263). -/
def pixelIndex (x y : Nat) : Nat := y % dispH * dispW + x % dispW

/-! ## Keypad -/

/-- The pressed keys, lowest first. -/
def State.pressedKeys (s : State) : List Reg := (List.finRange 16).filter fun k => s.pressed k

/-! ## Fetch Unit -/

/-- `fetch()` (40_interface_fetch_decode.md R151): both bytes are checked, high byte first; the word is big-endian (20_memory.md R77); pc advances by 2. -/
def fetch (s : State) : Except Fault (Word × State) :=
  match readFaults s.pc s.pc.toNat 2 with
  | some e => .error e
  | none => .ok (joinBytes (s.mem.read s.pc.toNat) (s.mem.read (s.pc.toNat + 1)), s.setPc (s.pc + 2))

/-! ## The tick -/

/-- One tick (40_interface_fetch_decode.md R150) for a way to run the instruction rules: fetch, decode, run. Ok and Waiting are the next state, in which AWAIT tells the two apart (R141); Error(e) is the fault e (60_exceptions.md R319). AWAIT is cleared before the rule runs: only FX0A writes it and no rule reads it, so this is R150's `AWAIT <- 0` after every rule that did not block (log entry 6). -/
def runTick (run : Instr → State → Host.Outcome State Fault Refusal) (s : State) : Host.Outcome State Fault Refusal :=
  match fetch s with
  | .error e => .fault e
  | .ok (w, s1) =>
    match decode w with
    | .error _ => .fault (.unknownOpcode w s.pc)
    | .ok i => run i (s1.setAwait false)

/-! ## Errors -/

/-- The spec's numeric codes (60_exceptions.md R310). -/
def Fault.code : Fault → Nat
  | .unknownOpcode _ _ => 1
  | .stackOverflow _ => 2
  | .stackUnderflow _ => 3
  | .outOfBounds _ _ => 4
  | .readOnlyWrite _ _ => 5
  | .badKeyIndex _ _ => 6

/-- The instruction address every error records (60_exceptions.md R310). -/
def Fault.aIns : Fault → Word
  | .unknownOpcode _ a => a
  | .stackOverflow a => a
  | .stackUnderflow a => a
  | .outOfBounds _ a => a
  | .readOnlyWrite _ a => a
  | .badKeyIndex _ a => a

/-- The state a tick that reported an error leaves, from the state before the tick (60_exceptions.md R316): AWAIT is 0, pc is as ERR_COMMIT_PC says (unchanged where the fetch itself failed), everything else as before the tick. There is no vector, no saved state and no return from it (R317, R318). -/
def afterError (p : ErrCommitPc) (s0 : State) : State :=
  match fetch s0 with
  | .error _ => s0.setAwait false
  | .ok _ =>
    match p with
    | .advance => (s0.setPc (s0.pc + 2)).setAwait false
    | .restore => s0.setAwait false

/-! ## Reset -/

/-- The canonical state for a given FONT (70_reset_and_hazards.md R340). `State.reset` is its value at the default FONT. -/
def State.resetWith (font : Font) : State := { State.reset with mem := Memory.store [] 0 font.toList }

end Sys2Proof.Machine
end

