-- ==== Sys2Proof/Machine/Operands.lean ====
section
/-! DEFINITION. The operand forms beyond a register number and an immediate: the effective address I + k, the jump offset by V0, the glyph address, the decimal digits, and the key a wait reports. -/

namespace Sys2Proof.Machine

open Sys2Proof.Config

/-- The effective address I + k, computed without wrap (43_index_memory.md R240; 20_memory.md R71). -/
def State.ea (s : State) (k : Nat) : Nat := s.i.toNat + k

/-- `zext_16(x[0]) + zext_16(NNN)` (41_control.md R192). -/
def State.offsetTarget (s : State) (addr : Word) : Word := zext16 (s.reg 0) + addr

/-- `5 * (a & 0x0F)`: the address of the glyph of a's low nibble (43_index_memory.md R243). -/
def glyphAddr (a : Byte) : Word := BitVec.ofNat 16 (glyphBytes * (a.toNat % 16))

/-- The hundreds, tens and ones digits, in the order they are stored (43_index_memory.md R244). -/
def bcdDigits (a : Byte) : List Byte :=
  [BitVec.ofNat 8 (a.toNat / 100), BitVec.ofNat 8 (a.toNat / 10 % 10), BitVec.ofNat 8 (a.toNat % 10)]

/-- VX as a key index, which is above 15 for some values of VX (45_timers_keys.md R281, R282). -/
def keyIndex (a : Byte) : Option Reg := if h : a.toNat < 16 then some ⟨a.toNat, h⟩ else none

/-- The key a wait reports for the key draw kp: with one key pressed that key, with more the draw (40_interface_fetch_decode.md R142). -/
def State.keyOfDraw (s : State) (kp : Reg) : Reg :=
  match s.pressedKeys with
  | [k] => k
  | _ => kp

/-- The key of the free draw: any of the pressed keys (00_scope.md R18, `KEY_PICK`; log entry 4). -/
def State.freeKey (s : State) : Reg :=
  s.keyOfDraw (s.pressedKeys.getD (keyPick s.draws % s.pressedKeys.length) 0)

/-- A wait that met two or more pressed keys has read a free draw (log entry 3). -/
def State.afterKeyDraw (s : State) : State := if 2 ≤ s.pressedKeys.length then s.nextDraw else s

end Sys2Proof.Machine
end

