-- ==== Sys2Proof/Machine/Flags.lean ====
section
/-! DEFINITION. The ALU function with every flag computation (42_alu.md R210, R213), and the order in which the register-file controller writes VX and VF (R211, R212). -/

namespace Sys2Proof.Machine

/-- The operations of the ALU table (42_alu.md R210). -/
inductive AluOp where
  | mov
  | or
  | and
  | xor
  | add
  | sub
  | shr
  | subn
  | shl
  | addi
deriving DecidableEq, Repr

/-- ADD's flag: the carry out of bit 7 (42_alu.md R210, R213). -/
def carryOut (a b : Byte) : Bool := 256 ≤ a.toNat + b.toNat

/-- SUB's and SUBN's flag: "no borrow" of minuend − subtrahend (42_alu.md R210, R213). -/
def noBorrow (minuend subtrahend : Byte) : Bool := !decide (minuend.toNat < subtrahend.toNat)

/-- `alu(op, a, b) -> (res, flag)` (42_alu.md R210); no flag means that VF is not written. -/
def alu : AluOp → Byte → Byte → Byte × Option Bool
  | .mov, _, b => (b, none)
  | .or, a, b => (a ||| b, none)
  | .and, a, b => (a &&& b, none)
  | .xor, a, b => (a ^^^ b, none)
  | .add, a, b => (a + b, some (carryOut a b))
  | .sub, a, b => (a - b, some (noBorrow a b))
  | .shr, a, _ => (a >>> 1, some (a.getLsbD 0))
  | .subn, a, b => (b - a, some (noBorrow b a))
  | .shl, a, _ => (a <<< 1, some (a.getLsbD 7))
  | .addi, a, b => (a + b, none)

/-- A flag is written as the byte 0x00 or 0x01 (42_alu.md R213). -/
def flagByte (f : Bool) : Byte := if f then 0x01 else 0x00

/-- `x[15] <- flag`. -/
def State.setFlag (s : State) (f : Bool) : State := s.setReg vf (flagByte f)

/-- The controller (42_alu.md R211): operands a = VX and b are read, then VX is written, then VF if there is a flag, which so has the last word (R212). -/
def State.aluWrite (s : State) (op : AluOp) (x : Reg) (b : Byte) : State :=
  let r := alu op (s.reg x) b
  match r.2 with
  | none => s.setReg x r.1
  | some f => (s.setReg x r.1).setFlag f

end Sys2Proof.Machine
end

