-- ==== Sys2Proof/Machine/Alu.lean ====
section
/-! DEFINITION. Load and add immediate, the register-register ALU group and the random instruction (42_alu.md). -/

namespace Sys2Proof.Machine

/-- LD Vx, byte, 6XNN: `x[X] <- NN` (42_alu.md R214). -/
def execLdByte (x : Reg) (nn : Byte) (s : State) : Host.Outcome State Fault Refusal := .next (s.setReg x nn)

/-- ADD Vx, byte, 7XNN: VF is not written as a flag (42_alu.md R215). -/
def execAddByte (x : Reg) (nn : Byte) (s : State) : Host.Outcome State Fault Refusal :=
  .next (s.aluWrite .addi x nn)

/-- LD Vx, Vy, 8XY0 (42_alu.md R216). -/
def execLdReg (x y : Reg) (s : State) : Host.Outcome State Fault Refusal := .next (s.aluWrite .mov x (s.reg y))

/-- OR Vx, Vy, 8XY1 (42_alu.md R217). -/
def execOr (x y : Reg) (s : State) : Host.Outcome State Fault Refusal := .next (s.aluWrite .or x (s.reg y))

/-- AND Vx, Vy, 8XY2 (42_alu.md R218). -/
def execAnd (x y : Reg) (s : State) : Host.Outcome State Fault Refusal := .next (s.aluWrite .and x (s.reg y))

/-- XOR Vx, Vy, 8XY3 (42_alu.md R219). -/
def execXor (x y : Reg) (s : State) : Host.Outcome State Fault Refusal := .next (s.aluWrite .xor x (s.reg y))

/-- ADD Vx, Vy, 8XY4: VF = carry (42_alu.md R220). -/
def execAddReg (x y : Reg) (s : State) : Host.Outcome State Fault Refusal := .next (s.aluWrite .add x (s.reg y))

/-- SUB Vx, Vy, 8XY5: VX − VY, VF = no borrow (42_alu.md R221). -/
def execSub (x y : Reg) (s : State) : Host.Outcome State Fault Refusal := .next (s.aluWrite .sub x (s.reg y))

/-- SHR Vx, 8XY6: VF = bit 0 of VX before the shift; VY has no effect (42_alu.md R222; 30_encoding.md R106). -/
def execShr (x y : Reg) (s : State) : Host.Outcome State Fault Refusal := .next (s.aluWrite .shr x (s.reg y))

/-- SUBN Vx, Vy, 8XY7: VY − VX, VF = no borrow (42_alu.md R223). -/
def execSubn (x y : Reg) (s : State) : Host.Outcome State Fault Refusal := .next (s.aluWrite .subn x (s.reg y))

/-- SHL Vx, 8XYE: VF = bit 7 of VX before the shift; VY has no effect (42_alu.md R224; 30_encoding.md R106). -/
def execShl (x y : Reg) (s : State) : Host.Outcome State Fault Refusal := .next (s.aluWrite .shl x (s.reg y))

/-- `x[X] <- r & NN` for the random byte r (42_alu.md R225). -/
def State.random (s : State) (r : Byte) (x : Reg) (nn : Byte) : State := s.setReg x (r &&& nn)

/-- RND Vx, byte, CXNN, with the next free random byte (42_alu.md R225; log entry 3). -/
def execRnd (x : Reg) (nn : Byte) (s : State) : Host.Outcome State Fault Refusal :=
  .next (s.random (Config.rng s.draws) x nn).nextDraw

end Sys2Proof.Machine
end

