-- ==== Sys2Proof/Machine/Control.lean ====
section
/-! DEFINITION. No-op, jumps, call, return and the skips on registers and immediates (41_control.md). Inside a meaning pc is `a_ins + 2` (00_scope.md R25). -/

namespace Sys2Proof.Machine

/-- NOP, 0000 (41_control.md R184). -/
def execNop (s : State) : Host.Outcome State Fault Refusal := .next s

/-- RET, 00EE: `t <- pop(); pc <- t` (41_control.md R185). -/
def execRet (s : State) : Host.Outcome State Fault Refusal :=
  match s.pop with
  | .error e => .fault e
  | .ok (t, s') => .next (s'.setPc t)

/-- JP addr, 1NNN: `pc <- zext_16(NNN)` (41_control.md R186). -/
def execJp (addr : Word) (s : State) : Host.Outcome State Fault Refusal := .next (s.setPc addr)

/-- CALL addr, 2NNN: `push(pc); pc <- zext_16(NNN)` (41_control.md R187). -/
def execCall (addr : Word) (s : State) : Host.Outcome State Fault Refusal :=
  match s.push s.pc with
  | .error e => .fault e
  | .ok s' => .next (s'.setPc addr)

/-- SE Vx, byte, 3XNN: skip if VX = NN (41_control.md R188). -/
def execSeByte (x : Reg) (nn : Byte) (s : State) : Host.Outcome State Fault Refusal :=
  .next (s.skipIf (s.reg x == nn))

/-- SNE Vx, byte, 4XNN: skip if VX ≠ NN (41_control.md R189). -/
def execSneByte (x : Reg) (nn : Byte) (s : State) : Host.Outcome State Fault Refusal :=
  .next (s.skipIf (s.reg x != nn))

/-- SE Vx, Vy, 5XY0: skip if VX = VY (41_control.md R190). -/
def execSeReg (x y : Reg) (s : State) : Host.Outcome State Fault Refusal :=
  .next (s.skipIf (s.reg x == s.reg y))

/-- SNE Vx, Vy, 9XY0: skip if VX ≠ VY (41_control.md R191). -/
def execSneReg (x y : Reg) (s : State) : Host.Outcome State Fault Refusal :=
  .next (s.skipIf (s.reg x != s.reg y))

/-- JP V0, addr, BNNN: `pc <- zext_16(x[0]) + zext_16(NNN)` (41_control.md R192). -/
def execJpV0 (addr : Word) (s : State) : Host.Outcome State Fault Refusal := .next (s.setPc (s.offsetTarget addr))

end Sys2Proof.Machine
end

