-- ==== Sys2Proof/Machine/Display.lean ====
section
/-! DEFINITION. The Framebuffer Compositor and its two instructions (44_display.md). -/

namespace Sys2Proof.Machine

/-- The pixels one sprite row lights, most significant bit first, wrapped on each axis (44_display.md R262, R263). -/
def rowPixels (x0 y : Nat) (b : Byte) : List Nat :=
  ((List.range 8).filter fun col => b.getLsbD (7 - col)).map fun col => pixelIndex (x0 + col) y

/-- The pixels an n-row sprite at base lights, in the order of the loop of 44_display.md R262. -/
def spritePixels (m : Memory) (x0 y0 base n : Nat) : List Nat :=
  (List.range n).flatMap fun row => rowPixels x0 (y0 + row) (m.read (base + row))

/-- One turn of the loop's body: `if FB[p] = 1 then coll <- 1; FB[p] <- FB[p] ^ 1` (44_display.md R262). -/
def drawPixel (acc : Framebuffer × Bool) (p : Nat) : Framebuffer × Bool :=
  (acc.1.toggle p, acc.2 || acc.1.cell p)

/-- `draw`: the framebuffer and the collision bit after the pixels (44_display.md R262). -/
def draw (f : Framebuffer) (ps : List Nat) : Framebuffer × Bool := ps.foldl drawPixel (f, false)

/-- CLS, 00E0: every pixel 0, VF unchanged (44_display.md R261, R264). -/
def execCls (s : State) : Host.Outcome State Fault Refusal := .next (s.setFb Framebuffer.blank)

/-- DRW Vx, Vy, nibble, DXYN: all reads checked first, then the pixels, then VF = collision (44_display.md R265). -/
def execDrw (x y : Reg) (n : Nat) (s : State) : Host.Outcome State Fault Refusal :=
  match readFaults s.aIns (s.ea 0) n with
  | some e => .fault e
  | none =>
    let d := draw s.fb (spritePixels s.mem (s.reg x).toNat (s.reg y).toNat (s.ea 0) n)
    .next ((s.setFb d.1).setFlag d.2)

end Sys2Proof.Machine
end

