-- ==== Sys2Proof/Machine/IndexMemory.lean ====
section
/-! DEFINITION. The index register and the moves between registers and MEM through it (43_index_memory.md). Every check is made before any write (R247; 20_memory.md R85). -/

namespace Sys2Proof.Machine

/-- LD I, addr, ANNN: `I <- zext_16(NNN)` (43_index_memory.md R241). -/
def execLdI (addr : Word) (s : State) : Host.Outcome State Fault Refusal := .next (s.setI addr)

/-- ADD I, Vx, FX1E: `I <- (I + VX) mod 65536`, VF unchanged (43_index_memory.md R242). -/
def execAddI (x : Reg) (s : State) : Host.Outcome State Fault Refusal := .next (s.setI (s.i + zext16 (s.reg x)))

/-- LD F, Vx, FX29: I = the address of the glyph of VX's low nibble (43_index_memory.md R243). -/
def execLdF (x : Reg) (s : State) : Host.Outcome State Fault Refusal := .next (s.setI (glyphAddr (s.reg x)))

/-- LD B, Vx, FX33: the three decimal digits of VX at I, I+1, I+2 (43_index_memory.md R244). -/
def execLdB (x : Reg) (s : State) : Host.Outcome State Fault Refusal :=
  match writeFaults s.aIns (s.ea 0) 3 with
  | some e => .fault e
  | none => .next (s.storeBytes (s.ea 0) (bcdDigits (s.reg x)))

/-- LD [I], Vx, FX55: V0..VX at I..I+X (43_index_memory.md R245). -/
def execLdStore (x : Reg) (s : State) : Host.Outcome State Fault Refusal :=
  match writeFaults s.aIns (s.ea 0) (x.val + 1) with
  | some e => .fault e
  | none => .next (s.storeBytes (s.ea 0) (s.regsUpTo x))

/-- LD Vx, [I], FX65: V0..VX from I..I+X (43_index_memory.md R246). -/
def execLdLoad (x : Reg) (s : State) : Host.Outcome State Fault Refusal :=
  match readFaults s.aIns (s.ea 0) (x.val + 1) with
  | some e => .fault e
  | none => .next (s.loadRegs x (s.ea 0))

end Sys2Proof.Machine
end

