-- ==== Sys2Proof/Machine/TimersKeys.lean ====
section
/-! DEFINITION. The key skips, the key wait and the timer transfers (45_timers_keys.md R281 to R286). -/

namespace Sys2Proof.Machine

/-- SKP Vx, EX9E: skip if key VX is pressed; VX above 15 raises BadKeyIndex (45_timers_keys.md R281). -/
def execSkp (x : Reg) (s : State) : Host.Outcome State Fault Refusal :=
  match keyIndex (s.reg x) with
  | none => .fault (.badKeyIndex (s.reg x) s.aIns)
  | some k => .next (s.skipIf (s.pressed k))

/-- SKNP Vx, EXA1: skip if key VX is not pressed; VX above 15 raises BadKeyIndex (45_timers_keys.md R282). -/
def execSknp (x : Reg) (s : State) : Host.Outcome State Fault Refusal :=
  match keyIndex (s.reg x) with
  | none => .fault (.badKeyIndex (s.reg x) s.aIns)
  | some k => .next (s.skipIf (!s.pressed k))

/-- LD Vx, DT, FX07 (45_timers_keys.md R283). -/
def execLdVxDt (x : Reg) (s : State) : Host.Outcome State Fault Refusal := .next (s.setReg x s.dt)

/-- The rule of FX0A for the key k it would report: with no key pressed pc goes back to the FX0A and AWAIT is set, otherwise VX = k and AWAIT is 0 (45_timers_keys.md R284). -/
def State.waitKey (s : State) (x k : Reg) : State :=
  if s.pressedKeys = [] then (s.setPc s.aIns).setAwait true
  else (s.setReg x (BitVec.ofNat 8 k.val)).setAwait false

/-- LD Vx, K, FX0A, with a free choice among the pressed keys (45_timers_keys.md R284; log entry 4). -/
def execLdVxK (x : Reg) (s : State) : Host.Outcome State Fault Refusal :=
  .next (s.afterKeyDraw.waitKey x s.freeKey)

/-- LD DT, Vx, FX15 (45_timers_keys.md R285). -/
def execLdDt (x : Reg) (s : State) : Host.Outcome State Fault Refusal := .next (s.setDt (s.reg x))

/-- LD ST, Vx, FX18 (45_timers_keys.md R286). -/
def execLdSt (x : Reg) (s : State) : Host.Outcome State Fault Refusal := .next (s.setSt (s.reg x))

end Sys2Proof.Machine
end

