-- ==== Sys2Proof/Machine/Step.lean ====
section
/-! DEFINITION. One step of the machine: one `tick()` (40_interface_fetch_decode.md R150) with the draws taken from the free values. -/

namespace Sys2Proof.Machine

/-- One tick (40_interface_fetch_decode.md R150), the instruction run by `exec`. -/
def step (s : State) : Host.Outcome State Fault Refusal := runTick exec s

/-- `s` with the instruction whose table word is `w` stored where the next step fetches: at pc, high byte first; where no instruction can be fetched from pc (4095 and above) pc is set to the entry point 0x200 as well. A program is loaded from outside the machine by `load` (70_reset_and_hazards.md R343, R347; log entry 7). -/
def State.withFetchWord (s : State) (nbits w : Nat) : State :=
  let word := BitVec.ofNat 16 (w % 2 ^ nbits)
  let s' := if s.pc.toNat < 4095 then s else s.setPc 0x200
  s'.storeBytes s'.pc.toNat [highByte word, lowByte word]

end Sys2Proof.Machine
end

