-- ==== Sys2Proof/Machine/Asm.lean ====
section
/-! DEFINITION. The assembler syntax of 30_encoding.md R116 to R118, after tokens are read: a mnemonic and its operands. The spellings are the spec's own adoption (D13); no meaning depends on them. -/

namespace Sys2Proof

/-- The mnemonics of the column `syntax` of 30_encoding.md R110 (R116). -/
inductive Mnemonic where
  | nop | cls | ret | jp | call | se | sne | ld | add | or | and | xor | sub | shr | subn | shl | rnd | drw | skp | sknp
deriving DecidableEq, Repr

/-- An operand (30_encoding.md R117): a register name V0..VF by its number, a number, or one of the fixed keywords. -/
inductive AsmOperand where
  | v (n : Nat)
  | num (n : Nat)
  | i | dt | st | k | f | b | atI
deriving DecidableEq, Repr

/-- `Vx`: 0 to 15, anything else does not assemble (30_encoding.md R117). -/
def asmReg (n : Nat) : Option Reg := if h : n < 16 then some ⟨n, h⟩ else none

/-- `byte`: 0x00 to 0xFF (30_encoding.md R117). -/
def asmByte (n : Nat) : Option Byte := if n < 0x100 then some (BitVec.ofNat 8 n) else none

/-- `addr`: 0x000 to 0xFFF (30_encoding.md R117). -/
def asmAddr (n : Nat) : Option Word := if n < 0x1000 then some (BitVec.ofNat 16 n) else none

/-- `nibble`: 0 to 15 (30_encoding.md R117). -/
def asmNibble (n : Nat) : Option Nat := if n < 16 then some n else none

/-- The operand form `Vx`, alone or beside a keyword. -/
def asmX (make : Reg → Instr) (x : Nat) : Option Instr := (asmReg x).map make

/-- The operand form `Vx, byte`. -/
def asmXnn (make : Reg → Byte → Instr) (x nn : Nat) : Option Instr :=
  match asmReg x, asmByte nn with
  | some x, some nn => some (make x nn)
  | _, _ => none

/-- The operand form `Vx, Vy`. -/
def asmXy (make : Reg → Reg → Instr) (x y : Nat) : Option Instr :=
  match asmReg x, asmReg y with
  | some x, some y => some (make x y)
  | _, _ => none

/-- The operand form `addr`. -/
def asmNnn (make : Word → Instr) (a : Nat) : Option Instr := (asmAddr a).map make

/-- The lines of `LD` (30_encoding.md R110). -/
def assembleLd : List AsmOperand → Option Instr
  | [.v x, .num nn] => asmXnn .ldByte x nn
  | [.v x, .v y] => asmXy .ldReg x y
  | [.i, .num a] => asmNnn .ldI a
  | [.v x, .dt] => asmX .ldVxDt x
  | [.v x, .k] => asmX .ldVxK x
  | [.dt, .v x] => asmX .ldDt x
  | [.st, .v x] => asmX .ldSt x
  | [.f, .v x] => asmX .ldF x
  | [.b, .v x] => asmX .ldB x
  | [.atI, .v x] => asmX .ldStore x
  | [.v x, .atI] => asmX .ldLoad x
  | _ => none

/-- The lines whose only operand form is `Vx, Vy`. -/
def assembleXy (make : Reg → Reg → Instr) : List AsmOperand → Option Instr
  | [.v x, .v y] => asmXy make x y
  | _ => none

/-- `SHR Vx` and `SHL Vx`: an omitted Vy encodes Y = 0 (30_encoding.md R117). -/
def assembleShift (make : Reg → Reg → Instr) : List AsmOperand → Option Instr
  | [.v x] => asmXy make x 0
  | [.v x, .v y] => asmXy make x y
  | _ => none

/-- The lines of `SE` and of `SNE`. -/
def assembleSkip (makeByte : Reg → Byte → Instr) (makeReg : Reg → Reg → Instr) : List AsmOperand → Option Instr
  | [.v x, .num nn] => asmXnn makeByte x nn
  | [.v x, .v y] => asmXy makeReg x y
  | _ => none

/-- The instruction a line stands for, if it assembles (30_encoding.md R116, R117). -/
def assemble (m : Mnemonic) (ops : List AsmOperand) : Option Instr :=
  match m with
  | .nop => if ops = [] then some .nop else none
  | .cls => if ops = [] then some .cls else none
  | .ret => if ops = [] then some .ret else none
  | .jp =>
    match ops with
    | [.num a] => asmNnn .jp a
    | [.v 0, .num a] => asmNnn .jpV0 a
    | _ => none
  | .call =>
    match ops with
    | [.num a] => asmNnn .call a
    | _ => none
  | .se => assembleSkip .seByte .seReg ops
  | .sne => assembleSkip .sneByte .sneReg ops
  | .ld => assembleLd ops
  | .add =>
    match ops with
    | [.v x, .num nn] => asmXnn .addByte x nn
    | [.v x, .v y] => asmXy .addReg x y
    | [.i, .v x] => asmX .addI x
    | _ => none
  | .or => assembleXy .or ops
  | .and => assembleXy .and ops
  | .xor => assembleXy .xor ops
  | .sub => assembleXy .sub ops
  | .shr => assembleShift .shr ops
  | .subn => assembleXy .subn ops
  | .shl => assembleShift .shl ops
  | .rnd =>
    match ops with
    | [.v x, .num nn] => asmXnn .rnd x nn
    | _ => none
  | .drw =>
    match ops with
    | [.v x, .v y, .num n] =>
      match asmReg x, asmReg y, asmNibble n with
      | some x, some y, some n => some (.drw x y n)
      | _, _, _ => none
    | _ => none
  | .skp =>
    match ops with
    | [.v x] => asmX .skp x
    | _ => none
  | .sknp =>
    match ops with
    | [.v x] => asmX .sknp x
    | _ => none

/-- The word of a line (30_encoding.md R118). -/
def assembleWord (m : Mnemonic) (ops : List AsmOperand) : Option Word := (assemble m ops).map encode

/-- A line that assembles to the instruction: the column `syntax` of 30_encoding.md R110. -/
def asmLine : Instr → Mnemonic × List AsmOperand
  | .nop => (.nop, [])
  | .cls => (.cls, [])
  | .ret => (.ret, [])
  | .jp addr => (.jp, [.num addr.toNat])
  | .call addr => (.call, [.num addr.toNat])
  | .seByte x nn => (.se, [.v x, .num nn.toNat])
  | .sneByte x nn => (.sne, [.v x, .num nn.toNat])
  | .seReg x y => (.se, [.v x, .v y])
  | .ldByte x nn => (.ld, [.v x, .num nn.toNat])
  | .addByte x nn => (.add, [.v x, .num nn.toNat])
  | .ldReg x y => (.ld, [.v x, .v y])
  | .or x y => (.or, [.v x, .v y])
  | .and x y => (.and, [.v x, .v y])
  | .xor x y => (.xor, [.v x, .v y])
  | .addReg x y => (.add, [.v x, .v y])
  | .sub x y => (.sub, [.v x, .v y])
  | .shr x y => (.shr, [.v x, .v y])
  | .subn x y => (.subn, [.v x, .v y])
  | .shl x y => (.shl, [.v x, .v y])
  | .sneReg x y => (.sne, [.v x, .v y])
  | .ldI addr => (.ld, [.i, .num addr.toNat])
  | .jpV0 addr => (.jp, [.v 0, .num addr.toNat])
  | .rnd x nn => (.rnd, [.v x, .num nn.toNat])
  | .drw x y n => (.drw, [.v x, .v y, .num n])
  | .skp x => (.skp, [.v x])
  | .sknp x => (.sknp, [.v x])
  | .ldVxDt x => (.ld, [.v x, .dt])
  | .ldVxK x => (.ld, [.v x, .k])
  | .ldDt x => (.ld, [.dt, .v x])
  | .ldSt x => (.ld, [.st, .v x])
  | .addI x => (.add, [.i, .v x])
  | .ldF x => (.ld, [.f, .v x])
  | .ldB x => (.ld, [.b, .v x])
  | .ldStore x => (.ld, [.atI, .v x])
  | .ldLoad x => (.ld, [.v x, .atI])

end Sys2Proof
end

