-- ==== Sys2Proof/Machine/HostOps.lean ====
section
/-! DEFINITION. The CORE's interface (40_interface_fetch_decode.md R140): each host operation is one atomic step. `tick` here takes its draws as inputs (R142) and also gives the state after an error, so that a run goes on as the host chooses (60_exceptions.md R318). -/

namespace Sys2Proof.Machine

open Sys2Proof.Config

/-! ## tick -/

/-- The two draws of a tick: the random byte and the key draw (40_interface_fetch_decode.md R142). -/
structure Draws where
  r : Byte
  kp : Reg
deriving DecidableEq, Repr

/-- What a tick returns (40_interface_fetch_decode.md R141). -/
inductive TickResult where
  | ok
  | waiting
  | error (e : Fault)
deriving DecidableEq, Repr

/-- The instruction rules with the draws given: as `exec`, but CXNN reads `d.r` and FX0A reads `d.kp` when two or more keys are pressed; a key draw that is not pressed there breaks the constraint of 40_interface_fetch_decode.md R142 and is refused. -/
def execWith (d : Draws) (i : Instr) (s : State) : Host.Outcome State Fault Refusal :=
  match i with
  | .rnd x nn => .next (s.random d.r x nn)
  | .ldVxK x =>
    if 2 ≤ s.pressedKeys.length ∧ s.pressed d.kp = false then .refused (.keyDrawNotPressed d.kp)
    else .next (s.waitKey x (s.keyOfDraw d.kp))
  | .nop | .cls | .ret => exec i s
  | .jp _ | .call _ | .ldI _ | .jpV0 _ => exec i s
  | .seByte _ _ | .sneByte _ _ | .ldByte _ _ | .addByte _ _ => exec i s
  | .seReg _ _ | .sneReg _ _ | .ldReg _ _ | .or _ _ | .and _ _ | .xor _ _ => exec i s
  | .addReg _ _ | .sub _ _ | .shr _ _ | .subn _ _ | .shl _ _ => exec i s
  | .drw _ _ _ => exec i s
  | .skp _ | .sknp _ | .ldVxDt _ | .ldDt _ | .ldSt _ => exec i s
  | .addI _ | .ldF _ | .ldB _ | .ldStore _ | .ldLoad _ => exec i s

/-- `tick()` (40_interface_fetch_decode.md R150): the result and the state after it, which after an error is that of 60_exceptions.md R316. -/
def tick (p : ErrCommitPc) (d : Draws) (s : State) : Except Refusal (TickResult × State) :=
  match runTick (execWith d) s with
  | .next t => .ok (if t.await then .waiting else .ok, t)
  | .fault e => .ok (.error e, afterError p s)
  | .refused r => .error r

/-! ## Timer Unit, keypad, load, reset, reads -/

/-- A timer's step: down by one, never below 0 (45_timers_keys.md R290). -/
def timerDown (b : Byte) : Byte := if b = 0 then 0 else b - 1

/-- `tick_timers()`: the beep and the state (45_timers_keys.md R290). -/
def tickTimers (s : State) : Bool × State :=
  (s.st == 1, (s.setDt (timerDown s.dt)).setSt (timerDown s.st))

/-- `set_key(index, pressed)`: refused outside 0..15 (45_timers_keys.md R295). -/
def setKey (index : Nat) (pressed : Bool) (s : State) : Except Refusal State :=
  if h : index < 16 then .ok (s.setKeyAt ⟨index, h⟩ pressed) else .error (.keyIndexOutOfRange index)

/-- `load(bytes)`: the bytes at 0x200 and nothing else; refused when longer than 3584 (70_reset_and_hazards.md R343, R344). -/
def load (bytes : List Byte) (s : State) : Except Refusal State :=
  if bytes.length ≤ maxLoad then .ok (s.storeBytes progBase bytes) else .error (.loadTooLong bytes.length)

/-- `new()` (70_reset_and_hazards.md R340). -/
def newCore (font : Font) : State := State.resetWith font

/-- `reset()`: the state `new()` gives, whatever the state was (70_reset_and_hazards.md R341, R342). The index of the next free draw, which is no state of the CORE, goes on (log entry 9). -/
def hostReset (font : Font) (s : State) : State := { State.resetWith font with draws := s.draws }

/-- `get_display()`: the values FB[0..2047] (40_interface_fetch_decode.md R145). -/
def getDisplay (s : State) : List Bool := (List.range 2048).map s.fb.cell

/-! ## The interface as one step function -/

/-- The operations the host calls on a CORE (40_interface_fetch_decode.md R140). -/
inductive HostOp where
  | reset
  | load (bytes : List Byte)
  | tick (d : Draws)
  | tickTimers
  | setKey (index : Nat) (pressed : Bool)
  | getDisplay
  | readStatus
deriving DecidableEq, Repr

/-- What an operation gives back (40_interface_fetch_decode.md R140, R145, R146). -/
inductive HostReply where
  | nothing
  | tick (r : TickResult)
  | beep (b : Bool)
  | display (cells : List Bool)
  | status (dt st : Byte) (key : Vector Bool 16) (await : Bool)
deriving DecidableEq, Repr

/-- One host operation: its reply and the state after it, or the refusal of an operation whose precondition the host broke, which has no step (60_exceptions.md R315). -/
def hostStep (p : Params) (op : HostOp) (s : State) : Except Refusal (HostReply × State) :=
  match op with
  | .reset => .ok (.nothing, hostReset p.font s)
  | .load bytes =>
    match load bytes s with
    | .ok t => .ok (.nothing, t)
    | .error r => .error r
  | .tick d =>
    match tick p.errCommitPc d s with
    | .ok (r, t) => .ok (.tick r, t)
    | .error r => .error r
  | .tickTimers => .ok (.beep (tickTimers s).1, (tickTimers s).2)
  | .setKey index pressed =>
    match setKey index pressed s with
    | .ok t => .ok (.nothing, t)
    | .error r => .error r
  | .getDisplay => .ok (.display (getDisplay s), s)
  | .readStatus => .ok (.status s.dt s.st s.key s.await, s)

end Sys2Proof.Machine
end

