-- ==== Sys2Proof/Safety.lean ====
section
/-! DEFINITION. What a legal state and a safe run are, in the terms the statements use. -/

namespace Sys2Proof.Machine

open Sys2Proof.Config

/-- The word a fetch at pc assembles: big-endian, from the bytes at pc and pc + 1 (40_interface_fetch_decode.md R151). -/
abbrev State.wordAtPc (s : State) : Word := joinBytes (s.mem.read s.pc.toNat) (s.mem.read (s.pc.toNat + 1))

/-- pc never passes 0x10FE, the largest jump target of BNNN (20_memory.md R81). -/
abbrev State.pcBounded (s : State) : Prop := s.pc.toNat ≤ 0x10FE

/-- Every stack entry in use is a return address `a_ins + 2` with a_ins ≤ 4094 (40_interface_fetch_decode.md R153; 20_memory.md R81). -/
abbrev State.stackBounded (s : State) : Prop := ∀ k : Reg, k.val < s.sp.val → s.stack[k.val].toNat ≤ 0x1000

/-- The legal states: memory in canonical form, pc and the stack entries in use within their bounds. -/
structure State.Inv (s : State) : Prop where
  memWf : s.mem.wf
  pcBounded : s.pcBounded
  stackBounded : s.stackBounded

/-- The states a CORE can be in: those any order of host operations reaches from `new()` (40_interface_fetch_decode.md R143). -/
inductive Reachable (p : Params) : State → Prop where
  | boot : Reachable p (newCore p.font)
  | op {s t : State} {reply : HostReply} (o : HostOp) : Reachable p s → hostStep p o s = .ok (reply, t) → Reachable p t

/-- The next k ticks report no Error (60_exceptions.md R319). -/
def SafeFor : Nat → State → Prop
  | 0, _ => True
  | k + 1, s => ∃ t, step s = .next t ∧ SafeFor k t

/-- The instruction writes VF as a flag (42_alu.md R227). -/
def writesFlag : Instr → Prop
  | .addReg _ _ | .sub _ _ | .shr _ _ | .subn _ _ | .shl _ _ | .drw _ _ _ => True
  | _ => False

/-- The instruction can write register q as its destination (10_state.md R45, column "V regs"). -/
def writesReg (q : Reg) : Instr → Prop
  | .ldByte x _ | .addByte x _ | .rnd x _ => q = x
  | .ldReg x _ | .or x _ | .and x _ | .xor x _ => q = x
  | .addReg x _ | .sub x _ | .shr x _ | .subn x _ | .shl x _ => q = x
  | .ldVxDt x | .ldVxK x => q = x
  | .ldLoad x => q.val ≤ x.val
  | _ => False

end Sys2Proof.Machine
end

