-- ==== Sys2Proof/Certificates/Slice0/Obligations.lean ====
section
/-! DEFINITION. The statements for the provers. Inside `exec` the state is the one after the fetch, so `s.pc` is `a_ins + 2` (00_scope.md R25) and `s.aIns` is `a_ins`. A frame is written `t = {s with f := t.f}`: nothing but the field f differs, and of memory the clause over every address says it again through the read of one byte. -/

open Sys2Proof Sys2Proof.Machine Sys2Proof.Config

/-! ## Encoding and decoding -/

/-- Words written out from the encodings of 30_encoding.md R110. -/
def Obligations.WordsOfTheTableDecode : Prop :=
  decode 0x0000 = .ok .nop ∧ decode 0x00E0 = .ok .cls ∧ decode 0x00EE = .ok .ret ∧
  decode 0x12A0 = .ok (.jp 0x2A0) ∧ decode 0x3342 = .ok (.seByte 3 0x42) ∧ decode 0x5120 = .ok (.seReg 1 2) ∧
  decode 0x8AB6 = .ok (.shr 0xA 0xB) ∧ decode 0x8AB7 = .ok (.subn 0xA 0xB) ∧ decode 0xA2F0 = .ok (.ldI 0x2F0) ∧
  decode 0xD125 = .ok (.drw 1 2 5) ∧ decode 0xE59E = .ok (.skp 5) ∧ decode 0xF565 = .ok (.ldLoad 5)

/-- Decode of encode is the identity on well-formed instructions, for words and for byte sequences (30_encoding.md R107, R118). -/
def Obligations.DecodeOfEncodeIsIdentity : Prop :=
  ∀ (i : Instr) (rest : List Byte), i.wellFormed = true →
    decode (encode i) = .ok i ∧ decodeBytes (encodeBytes i ++ rest) = .ok (i, rest)

/-- Encode of decode is the identity on the words that decode, and what decodes is well-formed: no bit of a word is dropped (30_encoding.md R107, R118). -/
def Obligations.EncodeOfDecodeIsIdentity : Prop :=
  ∀ (w : Word) (i : Instr), decode w = .ok i → i.wellFormed = true ∧ encode i = w

/-- 30_encoding.md R107: exactly one of the 35 disjoint rows and its fields, or Unknown. The fields are stated through the encoder, which is one word for each choice of them. -/
def Obligations.DecodeIsExactlyOneRowOrUnknown : Prop :=
  opcodeTable.length = 35 ∧
  opcodeTable.Pairwise (fun r q => ∀ w : Word, ¬(r.selects w = true ∧ q.selects w = true)) ∧
  ∀ w : Word,
    (∃ i, decode w = .ok i ∧ encode i = w ∧ opcodeRow i ∈ opcodeTable ∧
      ∀ r ∈ opcodeTable, r.selects w = true ↔ r = opcodeRow i) ∨
    (∃ c, decode w = .error (.unknown c w) ∧ ∀ r ∈ opcodeTable, r.selects w = false)

/-- The unknown words are exactly the six classes of 30_encoding.md R111 (the counts of that rule are not stated). -/
def Obligations.UnknownWordsAreTheSixClasses : Prop :=
  ∀ w : Word,
    (∃ r, decode w = .error r) ↔
      ((w.toNat / 0x1000 = 0x0 ∧ w ≠ 0x0000 ∧ w ≠ 0x00E0 ∧ w ≠ 0x00EE) ∨
       (w.toNat / 0x1000 = 0x5 ∧ w.toNat % 0x10 ≠ 0) ∨
       (w.toNat / 0x1000 = 0x8 ∧ w.toNat % 0x10 ∈ [0x8, 0x9, 0xA, 0xB, 0xC, 0xD, 0xF]) ∨
       (w.toNat / 0x1000 = 0x9 ∧ w.toNat % 0x10 ≠ 0) ∨
       (w.toNat / 0x1000 = 0xE ∧ w.toNat % 0x100 ∉ [0x9E, 0xA1]) ∨
       (w.toNat / 0x1000 = 0xF ∧ w.toNat % 0x100 ∉ [0x07, 0x0A, 0x15, 0x18, 0x1E, 0x29, 0x33, 0x55, 0x65]))

/-- A line of the adopted assembler syntax assembles to its instruction and its word. Nothing else assembles: a line that does is the line of its well-formed instruction, every operand at its own value (so an operand outside its range does not assemble), or SHR or SHL with Vy omitted, which is Y = 0 (30_encoding.md R116 to R118; the spellings are the spec's own adoption, D13). -/
def Obligations.AssemblerLinesRoundTrip : Prop :=
  (∀ i : Instr, i.wellFormed = true →
    assemble (asmLine i).1 (asmLine i).2 = some i ∧ assembleWord (asmLine i).1 (asmLine i).2 = some (encode i)) ∧
  (∀ x : Reg, assemble .shr [.v x] = some (.shr x 0) ∧ assemble .shl [.v x] = some (.shl x 0)) ∧
  ∀ (m : Mnemonic) (ops : List AsmOperand) (i : Instr), assemble m ops = some i →
    i.wellFormed = true ∧
    ((m, ops) = asmLine i ∨
      ∃ x : Reg, ops = [.v x] ∧ ((m = .shr ∧ i = .shr x 0) ∨ (m = .shl ∧ i = .shl x 0)))

/-! ## The tick -/

/-- A step runs the decoded instruction, after the fetch has moved pc past its word and AWAIT has been cleared (40_interface_fetch_decode.md R150, R153, R155; clearing AWAIT first is log entry 6). -/
def Obligations.StepRunsTheDecodedInstruction : Prop :=
  ∀ (s : State) (i : Instr), s.pc.toNat < 4095 → decode s.wordAtPc = .ok i →
    step s = exec i { s with pc := s.pc + 2, await := false }

/-- A fetch that needs a byte outside memory reports OutOfBounds, no instruction is decoded, and the tick leaves pc where it was (40_interface_fetch_decode.md R152; 20_memory.md R81; 60_exceptions.md R316). -/
def Obligations.FetchOutsideMemoryReportsOutOfBounds : Prop :=
  ∀ (p : ErrCommitPc) (d : Draws) (s : State), 4095 ≤ s.pc.toNat →
    let e := Fault.outOfBounds (if s.pc.toNat = 4095 then 4096 else s.pc.toNat) s.pc
    step s = .fault e ∧ tick p d s = .ok (.error e, { s with await := false })

/-- An unknown word reports UnknownOpcode with the word and its address, before any effect; every 0NNN but 0000, 00E0 and 00EE is one (30_encoding.md R112; 60_exceptions.md R316). -/
def Obligations.UnknownOpcodeIsReported : Prop :=
  (∀ (p : ErrCommitPc) (d : Draws) (s : State) (r : Reject), s.pc.toNat < 4095 → decode s.wordAtPc = .error r →
    let e := Fault.unknownOpcode s.wordAtPc s.pc
    step s = .fault e ∧
    tick p d s = .ok (.error e, { s with await := false, pc := if p = .advance then s.pc + 2 else s.pc })) ∧
  ∀ w : Word, w.toNat < 0x1000 → w ≠ 0x0000 → w ≠ 0x00E0 → w ≠ 0x00EE → ∃ r, decode w = .error r

/-- A program word placed where the next step fetches is what that step runs (log entry 7: `withFetchWord` stands for a load from outside). -/
def Obligations.PlacedWordIsRun : Prop :=
  ∀ (s : State) (w : Word) (i : Instr), s.mem.wf → decode w = .ok i →
    let t := s.withFetchWord 16 w.toNat
    step t = exec i { t with pc := t.pc + 2, await := false }

/-! ## Control transfer and skips -/

/-- Only the word 0x0000 is NOP; it changes nothing but the fetch's pc and AWAIT, so two zero bytes at pc run as a no-op (41_control.md R184). -/
def Obligations.NopOnlyAdvances : Prop :=
  (∀ w : Word, decode w = .ok .nop ↔ w = 0x0000) ∧
  (∀ s : State, exec .nop s = .next s) ∧
  ∀ s : State, s.pc.toNat < 4095 → s.mem.read s.pc.toNat = 0 → s.mem.read (s.pc.toNat + 1) = 0 →
    step s = .next { s with pc := s.pc + 2, await := false }

/-- 1NNN sets pc to NNN and nothing else (41_control.md R186). -/
def Obligations.JumpSetsPc : Prop :=
  ∀ (addr : Word) (s : State), (Instr.jp addr).wellFormed = true →
    ∃ t, exec (.jp addr) s = .next t ∧ t.pc.toNat = addr.toNat ∧ t = { s with pc := t.pc } ∧
      ∀ a, t.mem.read a = s.mem.read a

/-- BNNN sets pc to V0 + NNN, which never wraps and is not reduced modulo 4096 (41_control.md R192). -/
def Obligations.JumpWithOffsetAddsV0 : Prop :=
  ∀ (addr : Word) (s : State), (Instr.jpV0 addr).wellFormed = true →
    ∃ t, exec (.jpV0 addr) s = .next t ∧ t.pc.toNat = (s.reg 0).toNat + addr.toNat ∧ t.pc.toNat ≤ 0x10FE ∧
      t = { s with pc := t.pc } ∧ ∀ a, t.mem.read a = s.mem.read a

/-- The four register skips add 2 to pc just when their condition holds, and write nothing else (41_control.md R188 to R191). -/
def Obligations.RegisterSkipsAddTwo : Prop :=
  ∀ (x y : Reg) (nn : Byte) (s : State),
    (∃ t, exec (.seByte x nn) s = .next t ∧ t = { s with pc := t.pc } ∧ (∀ a, t.mem.read a = s.mem.read a) ∧
      t.pc = if (s.reg x).toNat = nn.toNat then s.pc + 2 else s.pc) ∧
    (∃ t, exec (.sneByte x nn) s = .next t ∧ t = { s with pc := t.pc } ∧ (∀ a, t.mem.read a = s.mem.read a) ∧
      t.pc = if (s.reg x).toNat = nn.toNat then s.pc else s.pc + 2) ∧
    (∃ t, exec (.seReg x y) s = .next t ∧ t = { s with pc := t.pc } ∧ (∀ a, t.mem.read a = s.mem.read a) ∧
      t.pc = if (s.reg x).toNat = (s.reg y).toNat then s.pc + 2 else s.pc) ∧
    (∃ t, exec (.sneReg x y) s = .next t ∧ t = { s with pc := t.pc } ∧ (∀ a, t.mem.read a = s.mem.read a) ∧
      t.pc = if (s.reg x).toNat = (s.reg y).toNat then s.pc else s.pc + 2)

/-- CALL below depth 16 pushes pc and jumps; at depth 16 it reports StackOverflow (41_control.md R181, R187). -/
def Obligations.CallPushesReturnAddress : Prop :=
  ∀ (addr : Word) (s : State), (Instr.call addr).wellFormed = true →
    (s.sp.val < 16 →
      ∃ t, exec (.call addr) s = .next t ∧ t.pc.toNat = addr.toNat ∧ t.sp.val = s.sp.val + 1 ∧
        (∀ k : Reg, t.stack[k.val] = if k.val = s.sp.val then s.pc else s.stack[k.val]) ∧
        t = { s with pc := t.pc, sp := t.sp, stack := t.stack } ∧ ∀ a, t.mem.read a = s.mem.read a) ∧
    (s.sp.val = 16 → exec (.call addr) s = .fault (.stackOverflow s.aIns))

/-- RET above depth 0 pops the top entry into pc and clears no entry; at depth 0 it reports StackUnderflow (41_control.md R182, R185; 10_state.md R38). -/
def Obligations.ReturnPopsTopEntry : Prop :=
  ∀ s : State,
    (0 < s.sp.val →
      ∃ t, exec .ret s = .next t ∧ t.sp.val + 1 = s.sp.val ∧ (∀ k : Reg, k.val + 1 = s.sp.val → t.pc = s.stack[k.val]) ∧
        t = { s with pc := t.pc, sp := t.sp } ∧ ∀ a, t.mem.read a = s.mem.read a) ∧
    (s.sp.val = 0 → exec .ret s = .fault (.stackUnderflow s.aIns))

/-- A call and the return after it come back to the instruction after the call with the stack at its old depth (41_control.md R185, R187, R194). -/
def Obligations.CallThenReturnComesBack : Prop :=
  ∀ (addr : Word) (s t : State), exec (.call addr) s = .next t →
    ∃ u, exec .ret t = .next u ∧ u = { s with stack := t.stack } ∧
      ∀ k : Reg, k.val < s.sp.val → u.stack[k.val] = s.stack[k.val]

/-- Only the listed instructions can leave pc elsewhere than `a_ins + 2`, the skips by 2 more and FX0A only when it blocks (41_control.md R195; that they do so where their rules say is in the statements of each). -/
def Obligations.OnlyControlInstructionsWritePc : Prop :=
  ∀ (i : Instr) (s t : State), exec i s = .next t → t.pc ≠ s.pc →
    match i with
    | .ret | .jp _ | .call _ | .jpV0 _ => True
    | .seByte _ _ | .sneByte _ _ | .seReg _ _ | .sneReg _ _ | .skp _ | .sknp _ => t.pc = s.pc + 2
    | .ldVxK _ => (∀ k, s.pressed k = false) ∧ t.pc = s.aIns
    | _ => False

/-! ## ALU -/

/-- The instructions that write VX and no flag: 6XNN, 7XNN, 8XY0, 8XY1, 8XY2, 8XY3 (42_alu.md R214 to R219). Every other register, VF among them, is unchanged. -/
def Obligations.FlaglessAluWritesVxOnly : Prop :=
  ∀ (x y : Reg) (nn : Byte) (s : State),
    let writes := fun (i : Instr) (result : Nat) =>
      ∃ t, exec i s = .next t ∧ (t.reg x).toNat = result ∧ (∀ q, q ≠ x → t.reg q = s.reg q) ∧
        t = { s with v := t.v } ∧ ∀ a, t.mem.read a = s.mem.read a
    writes (.ldByte x nn) nn.toNat ∧
    writes (.addByte x nn) (((s.reg x).toNat + nn.toNat) % 256) ∧
    writes (.ldReg x y) (s.reg y).toNat ∧
    writes (.or x y) ((s.reg x).toNat ||| (s.reg y).toNat) ∧
    writes (.and x y) ((s.reg x).toNat &&& (s.reg y).toNat) ∧
    writes (.xor x y) ((s.reg x).toNat ^^^ (s.reg y).toNat)

/-- 8XY4: the sum modulo 256 and the carry, which has the last word when X is 15 (42_alu.md R212, R220). -/
def Obligations.AddSetsCarry : Prop :=
  ∀ (x y : Reg) (s : State),
    ∃ t, exec (.addReg x y) s = .next t ∧
      (x ≠ 15 → (t.reg x).toNat = ((s.reg x).toNat + (s.reg y).toNat) % 256) ∧
      (t.reg 15 = if 256 ≤ (s.reg x).toNat + (s.reg y).toNat then 1 else 0) ∧
      (∀ q, q ≠ x → q ≠ 15 → t.reg q = s.reg q) ∧ t = { s with v := t.v } ∧ ∀ a, t.mem.read a = s.mem.read a

/-- 8XY5 and 8XY7: the difference modulo 256 and "no borrow" (42_alu.md R212, R221, R223). -/
def Obligations.SubtractionsSetNotBorrow : Prop :=
  ∀ (x y : Reg) (s : State),
    let subtracts := fun (i : Instr) (minuend subtrahend : Nat) =>
      ∃ t, exec i s = .next t ∧
        (x ≠ 15 → (t.reg x).toNat = (minuend + 256 - subtrahend) % 256) ∧
        (t.reg 15 = if minuend < subtrahend then 0 else 1) ∧
        (∀ q, q ≠ x → q ≠ 15 → t.reg q = s.reg q) ∧ t = { s with v := t.v } ∧ ∀ a, t.mem.read a = s.mem.read a
    subtracts (.sub x y) (s.reg x).toNat (s.reg y).toNat ∧
    subtracts (.subn x y) (s.reg y).toNat (s.reg x).toNat

/-- 8XY6 and 8XYE: VX shifted by one and the bit shifted out; the field Y has no effect (42_alu.md R212, R222, R224; 30_encoding.md R106). -/
def Obligations.ShiftsSetBitShiftedOut : Prop :=
  ∀ (x y : Reg) (s : State),
    let shifts := fun (i : Instr) (result bit : Nat) =>
      ∃ t, exec i s = .next t ∧
        (x ≠ 15 → (t.reg x).toNat = result) ∧ (t.reg 15).toNat = bit ∧
        (∀ q, q ≠ x → q ≠ 15 → t.reg q = s.reg q) ∧ t = { s with v := t.v } ∧ ∀ a, t.mem.read a = s.mem.read a
    shifts (.shr x y) ((s.reg x).toNat / 2) ((s.reg x).toNat % 2) ∧
    shifts (.shl x y) ((s.reg x).toNat * 2 % 256) ((s.reg x).toNat / 128) ∧
    exec (.shr x y) s = exec (.shr x 0) s ∧ exec (.shl x y) s = exec (.shl x 0) s

/-- CXNN: VX is the random byte AND NN, for every byte given to the tick (42_alu.md R225; 40_interface_fetch_decode.md R142) and for the free random byte of `exec`, whose index it advances, so that two executions in a row read different draws: the index is the model's choice (log entry 3). -/
def Obligations.RandomIsMaskedDraw : Prop :=
  ∀ (x : Reg) (nn : Byte) (s : State),
    (∃ t, exec (.rnd x nn) s = .next t ∧ t.reg x = Config.rng s.draws &&& nn ∧ (nn = 0 → t.reg x = 0) ∧
      (nn = 0xFF → t.reg x = Config.rng s.draws) ∧ (∀ q, q ≠ x → t.reg q = s.reg q) ∧
      t = { s with v := t.v, draws := s.draws + 1 } ∧ ∀ a, t.mem.read a = s.mem.read a) ∧
    ∀ d : Draws, ∃ t, execWith d (.rnd x nn) s = .next t ∧ t.reg x = d.r &&& nn ∧
      (∀ q, q ≠ x → t.reg q = s.reg q) ∧ t = { s with v := t.v }

/-- Which registers an instruction can change: those it names as destination, and VF where it writes VF as a flag (42_alu.md R227; 10_state.md R45). -/
def Obligations.OnlyNamedRegistersChange : Prop :=
  ∀ (i : Instr) (s t : State) (q : Reg), exec i s = .next t → t.reg q ≠ s.reg q →
    writesReg q i ∨ (q = 15 ∧ writesFlag i)

/-! ## Index register and memory transfers -/

/-- ANNN, FX1E and FX29 write I and nothing else (43_index_memory.md R241 to R243). -/
def Obligations.IndexInstructionsWriteI : Prop :=
  ∀ (addr : Word) (x : Reg) (s : State),
    let writes := fun (i : Instr) (result : Nat) =>
      ∃ t, exec i s = .next t ∧ t.i.toNat = result ∧ t = { s with i := t.i } ∧ ∀ a, t.mem.read a = s.mem.read a
    writes (.ldI addr) addr.toNat ∧
    writes (.addI x) ((s.i.toNat + (s.reg x).toNat) % 65536) ∧
    writes (.ldF x) (5 * ((s.reg x).toNat % 16))

/-- FX33 writes the three decimal digits of VX at I, I+1, I+2 where those lie in [80, 4096), and otherwise reports the first address that fails and writes nothing (43_index_memory.md R244, R247). -/
def Obligations.BcdStoresThreeDigits : Prop :=
  ∀ (x : Reg) (s : State), s.mem.wf →
    (80 ≤ s.i.toNat → s.i.toNat + 2 < 4096 →
      ∃ t, exec (.ldB x) s = .next t ∧ t = { s with mem := t.mem } ∧
        (t.mem.read s.i.toNat).toNat = (s.reg x).toNat / 100 ∧
        (t.mem.read (s.i.toNat + 1)).toNat = (s.reg x).toNat / 10 % 10 ∧
        (t.mem.read (s.i.toNat + 2)).toNat = (s.reg x).toNat % 10 ∧
        ∀ a, a < s.i.toNat ∨ s.i.toNat + 2 < a → t.mem.read a = s.mem.read a) ∧
    (s.i.toNat < 80 → exec (.ldB x) s = .fault (.readOnlyWrite s.i.toNat s.aIns)) ∧
    (4096 ≤ s.i.toNat + 2 → exec (.ldB x) s = .fault (.outOfBounds (max s.i.toNat 4096) s.aIns))

/-- FX55 writes V0..VX at I..I+X where those lie in [80, 4096), and otherwise reports the first address that fails and writes nothing (43_index_memory.md R245, R247). -/
def Obligations.BlockStoreWritesRegisters : Prop :=
  ∀ (x : Reg) (s : State), s.mem.wf →
    (80 ≤ s.i.toNat → s.i.toNat + x.val < 4096 →
      ∃ t, exec (.ldStore x) s = .next t ∧ t = { s with mem := t.mem } ∧
        (∀ k : Reg, k.val ≤ x.val → t.mem.read (s.i.toNat + k.val) = s.reg k) ∧
        ∀ a, a < s.i.toNat ∨ s.i.toNat + x.val < a → t.mem.read a = s.mem.read a) ∧
    (s.i.toNat < 80 → exec (.ldStore x) s = .fault (.readOnlyWrite s.i.toNat s.aIns)) ∧
    (4096 ≤ s.i.toNat + x.val → exec (.ldStore x) s = .fault (.outOfBounds (max s.i.toNat 4096) s.aIns))

/-- FX65 loads V0..VX from I..I+X where those lie in memory, and otherwise reports the first address that fails and loads nothing (43_index_memory.md R246, R247). -/
def Obligations.BlockLoadReadsRegisters : Prop :=
  ∀ (x : Reg) (s : State),
    (s.i.toNat + x.val < 4096 →
      ∃ t, exec (.ldLoad x) s = .next t ∧ t = { s with v := t.v } ∧ (∀ a, t.mem.read a = s.mem.read a) ∧
        ∀ q : Reg, t.reg q = if q.val ≤ x.val then s.mem.read (s.i.toNat + q.val) else s.reg q) ∧
    (4096 ≤ s.i.toNat + x.val → exec (.ldLoad x) s = .fault (.outOfBounds (max s.i.toNat 4096) s.aIns))

/-- A block store followed by a block load at the same I gives the registers back (43_index_memory.md R245, R246; 20_memory.md R86). -/
def Obligations.BlockStoreThenLoadGivesBack : Prop :=
  ∀ (x : Reg) (s t : State), s.mem.wf → exec (.ldStore x) s = .next t → exec (.ldLoad x) t = .next t

/-- Registers stored by FX55 and then fetched are a word: Vk its high byte, V(k+1) its low byte (20_memory.md R77, R78, R92). -/
def Obligations.StoredRegistersAreFetchedAsAWord : Prop :=
  ∀ (x j k : Reg) (s t : State), s.mem.wf → exec (.ldStore x) s = .next t → j.val = k.val + 1 → j.val ≤ x.val →
    ∀ pc : Word, pc.toNat = s.i.toNat + k.val →
      fetch { t with pc := pc } = .ok (joinBytes (s.reg k) (s.reg j), { t with pc := pc + 2 })

/-! ## Display -/

/-- 00E0 sets every pixel to 0 and nothing else (44_display.md R261, R264). -/
def Obligations.ClearScreenClearsEveryPixel : Prop :=
  ∀ s : State, ∃ t, exec .cls s = .next t ∧ (∀ p < 2048, t.fb.cell p = false) ∧ t = { s with fb := t.fb } ∧
    ∀ a, t.mem.read a = s.mem.read a

/-- DXYN: the pixel at each 1 bit of the sprite, wrapped on each axis, is flipped and no other; VF is 1 just when a set pixel was turned off; a row outside memory is reported first and nothing changes (44_display.md R262, R265). -/
def Obligations.DrawFlipsSpritePixels : Prop :=
  ∀ (x y : Reg) (n : Nat) (s : State), (Instr.drw x y n).wellFormed = true →
    let lit := fun p : Nat => ∃ row < n, ∃ col < 8, (s.mem.read (s.i.toNat + row)).getLsbD (7 - col) = true ∧
      p = ((s.reg y).toNat + row) % 32 * 64 + ((s.reg x).toNat + col) % 64
    (n = 0 ∨ s.i.toNat + n ≤ 4096 →
      ∃ t, exec (.drw x y n) s = .next t ∧
        (∀ p < 2048, (lit p → t.fb.cell p = !s.fb.cell p) ∧ (¬lit p → t.fb.cell p = s.fb.cell p)) ∧
        ((∃ p < 2048, lit p ∧ s.fb.cell p = true) → t.reg 15 = 1) ∧
        (¬(∃ p < 2048, lit p ∧ s.fb.cell p = true) → t.reg 15 = 0) ∧
        (∀ q, q ≠ 15 → t.reg q = s.reg q) ∧ t = { s with v := t.v, fb := t.fb } ∧ ∀ a, t.mem.read a = s.mem.read a) ∧
    (n ≠ 0 → 4096 < s.i.toNat + n → exec (.drw x y n) s = .fault (.outOfBounds (max s.i.toNat 4096) s.aIns))

/-- Two identical draws in a row, X and Y not 15, restore the framebuffer; the second sets VF to 1 just when some pixel of the sprite was clear before the first. So it is 1 where the rows hold a 1 bit and the screen was clear. Where they hold none, both draws leave the framebuffer and set VF to 0 (44_display.md R262, R265). R267 claims VF = 1 whenever the rows hold a 1 bit, which R262 contradicts where every pixel of the sprite was set before; 90_conflicts.md C12 lets the draw action, R262, win (log entry 18). -/
def Obligations.DrawTwiceRestores : Prop :=
  ∀ (x y : Reg) (n : Nat) (s t : State), (Instr.drw x y n).wellFormed = true → x ≠ 15 → y ≠ 15 →
    exec (.drw x y n) s = .next t →
    let lit := fun p : Nat => ∃ row < n, ∃ col < 8, (s.mem.read (s.i.toNat + row)).getLsbD (7 - col) = true ∧
      p = ((s.reg y).toNat + row) % 32 * 64 + ((s.reg x).toNat + col) % 64
    ∃ u, exec (.drw x y n) t = .next u ∧ u.fb = s.fb ∧
      ((∃ p < 2048, lit p ∧ s.fb.cell p = false) → u.reg 15 = 1) ∧
      (¬(∃ p < 2048, lit p ∧ s.fb.cell p = false) → u.reg 15 = 0) ∧
      ((∃ row < n, s.mem.read (s.i.toNat + row) ≠ 0) → (∀ p < 2048, s.fb.cell p = false) → u.reg 15 = 1) ∧
      ((∀ row < n, s.mem.read (s.i.toNat + row) = 0) → t.fb = s.fb ∧ t.reg 15 = 0 ∧ u.reg 15 = 0)

/-! ## Keys and timers -/

/-- EX9E and EXA1 skip on the level of key VX, and report BadKeyIndex for VX above 15 (45_timers_keys.md R281, R282). -/
def Obligations.KeySkipsTestTheKey : Prop :=
  ∀ (x : Reg) (s : State),
    (∀ k : Reg, (s.reg x).toNat = k.val →
      (∃ t, exec (.skp x) s = .next t ∧ t = { s with pc := t.pc } ∧ (∀ a, t.mem.read a = s.mem.read a) ∧
        t.pc = if s.key[k.val] = true then s.pc + 2 else s.pc) ∧
      (∃ t, exec (.sknp x) s = .next t ∧ t = { s with pc := t.pc } ∧ (∀ a, t.mem.read a = s.mem.read a) ∧
        t.pc = if s.key[k.val] = true then s.pc else s.pc + 2)) ∧
    (15 < (s.reg x).toNat →
      exec (.skp x) s = .fault (.badKeyIndex (s.reg x) s.aIns) ∧
      exec (.sknp x) s = .fault (.badKeyIndex (s.reg x) s.aIns))

/-- FX07 reads DT into VX; FX15 and FX18 write VX into DT and ST; nothing else changes (45_timers_keys.md R283, R285, R286). -/
def Obligations.TimerTransfersMoveOneByte : Prop :=
  ∀ (x : Reg) (s : State),
    (∃ t, exec (.ldVxDt x) s = .next t ∧ t.reg x = s.dt ∧ (∀ q, q ≠ x → t.reg q = s.reg q) ∧ t = { s with v := t.v } ∧
      ∀ a, t.mem.read a = s.mem.read a) ∧
    (∃ t, exec (.ldDt x) s = .next t ∧ t.dt = s.reg x ∧ t = { s with dt := t.dt } ∧ ∀ a, t.mem.read a = s.mem.read a) ∧
    (∃ t, exec (.ldSt x) s = .next t ∧ t.st = s.reg x ∧ t = { s with st := t.st } ∧ ∀ a, t.mem.read a = s.mem.read a)

/-- FX0A with no key pressed blocks: pc goes back to the FX0A, AWAIT is 1, nothing else changes. With a key pressed it completes: VX is the index of a pressed key and AWAIT is 0 (45_timers_keys.md R284). Which pressed key is a free value (log entry 4). -/
def Obligations.KeyWaitBlocksOrReportsAPressedKey : Prop :=
  ∀ (x : Reg) (s : State),
    ((∀ k : Reg, s.key[k.val] = false) →
      exec (.ldVxK x) s = .next { s with pc := s.aIns, await := true }) ∧
    ((∃ k : Reg, s.key[k.val] = true) →
      ∃ t, exec (.ldVxK x) s = .next t ∧ (∃ k : Reg, s.key[k.val] = true ∧ (t.reg x).toNat = k.val) ∧
        t.await = false ∧ (∀ q, q ≠ x → t.reg q = s.reg q) ∧
        t = { s with v := t.v, await := t.await, draws := t.draws } ∧ ∀ a, t.mem.read a = s.mem.read a)

/-- FX0A with the key draw kp given reports kp where kp is pressed, so every pressed key can be the one reported; with fewer than two keys pressed it does not read the draw and does what `exec` does (40_interface_fetch_decode.md R142). A draw that is not pressed while two or more keys are breaks the constraint of R142; that FX0A is then refused is the model's choice (log entry 14). -/
def Obligations.EveryPressedKeyCanBeReported : Prop :=
  ∀ (x : Reg) (d : Draws) (s : State),
    (s.key[d.kp.val] = true →
      ∃ t, execWith d (.ldVxK x) s = .next t ∧ (t.reg x).toNat = d.kp.val ∧ t.await = false ∧
        (∀ q, q ≠ x → t.reg q = s.reg q) ∧ t = { s with v := t.v, await := t.await }) ∧
    ((∀ j k : Reg, s.key[j.val] = true → s.key[k.val] = true → j = k) →
      execWith d (.ldVxK x) s = exec (.ldVxK x) s) ∧
    (s.key[d.kp.val] = false → (∃ j k : Reg, j ≠ k ∧ s.key[j.val] = true ∧ s.key[k.val] = true) →
      execWith d (.ldVxK x) s = .refused (.keyDrawNotPressed d.kp))

/-- AWAIT is 1 after a tick just when that tick ran FX0A with no key pressed, and then pc is back at it (10_state.md R42; 40_interface_fetch_decode.md R156). -/
def Obligations.AwaitMeansBlockedInKeyWait : Prop :=
  ∀ s t : State, step s = .next t →
    (t.await = true ↔ (∃ x, decode s.wordAtPc = .ok (.ldVxK x)) ∧ ∀ k : Reg, s.key[k.val] = false) ∧
    (t.await = true → t = { s with await := true } ∧ t.wordAtPc = s.wordAtPc)

/-- `tick_timers()`: both timers go down by at most 1 and never below 0, the beep is ST = 1, and nothing else changes (45_timers_keys.md R290). -/
def Obligations.TimerTickCountsDown : Prop :=
  ∀ s : State,
    (tickTimers s).2.dt.toNat = s.dt.toNat - 1 ∧ (tickTimers s).2.st.toNat = s.st.toNat - 1 ∧
    ((tickTimers s).1 = true ↔ s.st.toNat = 1) ∧
    (tickTimers s).2 = { s with dt := (tickTimers s).2.dt, st := (tickTimers s).2.st }

/-- After k timer ticks in a row each timer is max(start − k, 0), and over them exactly one beep sounds if ST started in 1..k, none otherwise (45_timers_keys.md R291, R292). -/
def Obligations.TimerTicksReachZeroWithOneBeep : Prop :=
  ∀ (s : State) (k : Nat),
    let after := fun n : Nat => (fun u : State => (tickTimers u).2)^[n] s
    (after k).dt.toNat = s.dt.toNat - k ∧ (after k).st.toNat = s.st.toNat - k ∧
    ((List.range k).filter fun n => (tickTimers (after n)).1).length =
      if 0 < s.st.toNat ∧ s.st.toNat ≤ k then 1 else 0

/-! ## The host's operations -/

/-- `set_key` writes one key and nothing else; an index above 15 is refused (45_timers_keys.md R295). -/
def Obligations.SetKeyWritesOneKey : Prop :=
  ∀ (index : Nat) (b : Bool) (s : State),
    (index < 16 →
      ∃ t, setKey index b s = .ok t ∧ t = { s with key := t.key } ∧
        ∀ k : Reg, t.key[k.val] = if k.val = index then b else s.key[k.val]) ∧
    (16 ≤ index → setKey index b s = .error (.keyIndexOutOfRange index))

/-- `load` writes its bytes at 0x200 onwards and nothing else, and more than 3584 bytes are refused (70_reset_and_hazards.md R343, R344). -/
def Obligations.LoadWritesProgramBytesOnly : Prop :=
  ∀ (b : List Byte) (s : State), s.mem.wf →
    (b.length ≤ 3584 →
      ∃ t, load b s = .ok t ∧ t = { s with mem := t.mem } ∧
        (∀ (k : Nat) (h : k < b.length), t.mem.read (0x200 + k) = b[k]) ∧
        ∀ a, a < 0x200 ∨ 0x200 + b.length ≤ a → t.mem.read a = s.mem.read a) ∧
    (3584 < b.length → load b s = .error (.loadTooLong b.length))

/-- `new()` gives the canonical state, for every FONT, and `reset()` gives it whatever the state was (70_reset_and_hazards.md R340, R341). The draw index is the model's own and is left out. -/
def Obligations.NewAndResetGiveTheCanonicalState : Prop :=
  ∀ (font : Font) (s : State),
    let canonical := fun t : State =>
      (∀ a : Fin 80, t.mem.read a.val = font[a.val]) ∧ (∀ a, 80 ≤ a → a < 4096 → t.mem.read a = 0) ∧
      (∀ q, t.reg q = 0) ∧ t.i = 0 ∧ t.pc = 0x200 ∧ (∀ k : Reg, t.stack[k.val] = 0) ∧ t.sp.val = 0 ∧
      t.dt = 0 ∧ t.st = 0 ∧ (∀ k : Reg, t.key[k.val] = false) ∧ (∀ p < 2048, t.fb.cell p = false) ∧ t.await = false
    canonical (newCore font) ∧ canonical (hostReset font s)

/-- `get_display()` gives the 2048 cells, pixel (x, y) at index y*64 + x, and the reads change no state (40_interface_fetch_decode.md R145, R146). -/
def Obligations.HostReadsGiveTheStateUnchanged : Prop :=
  ∀ (p : Params) (s : State),
    (∃ cells, hostStep p .getDisplay s = .ok (.display cells, s) ∧ cells.length = 2048 ∧
      ∀ x < 64, ∀ y < 32, cells[y * 64 + x]? = some (s.fb.cell (y * 64 + x))) ∧
    hostStep p .readStatus s = .ok (.status s.dt s.st s.key s.await, s)

/-! ## Errors -/

/-- The state after a tick that reports an error: all of the state before it, but AWAIT is 0 and pc is as ERR_COMMIT_PC says, unchanged where the fetch failed (60_exceptions.md R316). -/
def Obligations.ErrorLeavesThePreTickState : Prop :=
  ∀ (p : ErrCommitPc) (d : Draws) (s t : State) (e : Fault), tick p d s = .ok (.error e, t) →
    t = { s with await := false, pc := t.pc } ∧
    (4095 ≤ s.pc.toNat → t.pc = s.pc) ∧
    (s.pc.toNat < 4095 → p = .advance → t.pc = s.pc + 2) ∧
    (p = .restore → t.pc = s.pc)

/-- Which errors the execute stage of each instruction can raise (60_exceptions.md R311). -/
def Obligations.ErrorsOfEachInstruction : Prop :=
  ∀ (i : Instr) (s : State) (e : Fault), exec i s = .fault e →
    match i with
    | .ret => e = .stackUnderflow s.aIns ∧ s.sp.val = 0
    | .call _ => e = .stackOverflow s.aIns ∧ s.sp.val = 16
    | .drw _ _ n => (∃ row < n, e = .outOfBounds (s.i.toNat + row) s.aIns ∧ 4096 ≤ s.i.toNat + row)
    | .ldB _ =>
      (e = .readOnlyWrite s.i.toNat s.aIns ∧ s.i.toNat < 80) ∨
      (∃ k ≤ 2, e = .outOfBounds (s.i.toNat + k) s.aIns ∧ 4096 ≤ s.i.toNat + k)
    | .ldStore x =>
      (e = .readOnlyWrite s.i.toNat s.aIns ∧ s.i.toNat < 80) ∨
      (∃ k ≤ x.val, e = .outOfBounds (s.i.toNat + k) s.aIns ∧ 4096 ≤ s.i.toNat + k)
    | .ldLoad x => (∃ k ≤ x.val, e = .outOfBounds (s.i.toNat + k) s.aIns ∧ 4096 ≤ s.i.toNat + k)
    | .skp x | .sknp x => e = .badKeyIndex (s.reg x) s.aIns ∧ 15 < (s.reg x).toNat
    | _ => False

/-- Every error a step reports names the address the tick fetched from (60_exceptions.md R310, R314). -/
def Obligations.EveryErrorNamesItsInstruction : Prop :=
  ∀ (s : State) (e : Fault), step s = .fault e → e.aIns = s.pc

/-- No instruction and no step is refused, and a tick ends Ok, Waiting or Error (40_interface_fetch_decode.md R141) for every key draw R142 allows: one that is pressed, and any draw where the tick does not read it, because the word is no FX0A or fewer than two keys are pressed. -/
def Obligations.NothingIsRefused : Prop :=
  (∀ (i : Instr) (s : State) (r : Refusal), exec i s ≠ .refused r) ∧
  (∀ (s : State) (r : Refusal), step s ≠ .refused r) ∧
  ∀ (p : ErrCommitPc) (d : Draws) (s : State),
    (s.key[d.kp.val] = true ∨ (∀ j k : Reg, s.key[j.val] = true → s.key[k.val] = true → j = k) ∨
      ∀ x : Reg, decode s.wordAtPc ≠ .ok (.ldVxK x)) →
    ∃ r t, tick p d s = .ok (r, t)

/-! ## Whole-machine rules -/

/-- Which instructions can change each element of the state but the registers and pc; the keypad none (10_state.md R34, R39, R40, R45; 41_control.md R180; 44_display.md R260). -/
def Obligations.OnlyTheirInstructionsWriteEachElement : Prop :=
  ∀ (i : Instr) (s t : State), exec i s = .next t →
    (t.i ≠ s.i → match i with | .ldI _ | .addI _ | .ldF _ => True | _ => False) ∧
    (t.mem ≠ s.mem → match i with | .ldB _ | .ldStore _ => True | _ => False) ∧
    (t.sp ≠ s.sp ∨ t.stack ≠ s.stack → match i with | .call _ | .ret => True | _ => False) ∧
    (t.dt ≠ s.dt → match i with | .ldDt _ => True | _ => False) ∧
    (t.st ≠ s.st → match i with | .ldSt _ => True | _ => False) ∧
    (t.fb ≠ s.fb → match i with | .cls | .drw _ _ _ => True | _ => False) ∧
    t.key = s.key

/-- A program never changes the font region: no step changes a byte below 80 (60_exceptions.md R322; 70_reset_and_hazards.md R350; 20_memory.md R73). -/
def Obligations.StepNeverChangesTheFont : Prop :=
  ∀ s t : State, s.mem.wf → step s = .next t → ∀ a < 80, t.mem.read a = s.mem.read a

/-- pc becomes odd only through 00EE, 1NNN, 2NNN or BNNN: every other instruction, and the fetch, keep its parity (20_memory.md R80). -/
def Obligations.ParityOfPcIsKept : Prop :=
  ∀ (s t : State) (i : Instr), decode s.wordAtPc = .ok i → step s = .next t →
    match i with
    | .ret | .jp _ | .call _ | .jpV0 _ => True
    | _ => t.pc.toNat % 2 = s.pc.toNat % 2

/-- Every step keeps the invariant: canonical memory, pc at most 0x10FE, every stack entry in use at most 0x1000 (20_memory.md R81; 40_interface_fetch_decode.md R153). -/
def Obligations.StepKeepsInvariant : Prop :=
  ∀ s t : State, s.Inv → step s = .next t → t.Inv

/-- The invariant holds after reset, and after `new()` with any FONT (70_reset_and_hazards.md R340). -/
def Obligations.InvariantHoldsAtReset : Prop :=
  State.reset.Inv ∧ ∀ font : Font, (newCore font).Inv

/-- Every state any order of host operations can reach meets the invariant, errors and all, and holds the FONT it was made with (40_interface_fetch_decode.md R143; 20_memory.md R73, R81). -/
def Obligations.ReachableStatesKeepInvariantAndFont : Prop :=
  ∀ (p : Params) (s : State), Reachable p s → s.Inv ∧ ∀ a : Fin 80, s.mem.read a.val = p.font[a.val]

/-- A step with the free draws is a tick for some choice of draws the interface allows, up to the draw index, and a step that errs is a tick that reports the same error (40_interface_fetch_decode.md R142, R158; log entries 3 and 4). -/
def Obligations.StepIsATickForSomeDraws : Prop :=
  ∀ (p : ErrCommitPc) (s : State), ∃ d : Draws,
    (∀ t, step s = .next t →
      tick p d s = .ok (if t.await then .waiting else .ok, { t with draws := s.draws })) ∧
    (∀ e, step s = .fault e → ∃ t, tick p d s = .ok (.error e, t))

/-! ## The tick and the host's operations, for every draw -/

/-- A tick with any draws runs the decoded instruction with them, after the fetch has moved pc past its word: its next state is Waiting or Ok as AWAIT says, its error leaves R316's state, and 33 instructions read no draw, so that a tick of one is that of `exec` whatever the draws (40_interface_fetch_decode.md R142, R150, R155, R158; 60_exceptions.md R316). Clearing AWAIT first and refusing a draw R142 rules out are the model's choices (log entries 6 and 14). -/
def Obligations.TickRunsTheDecodedInstruction : Prop :=
  (∀ (p : ErrCommitPc) (d : Draws) (s : State) (i : Instr), s.pc.toNat < 4095 → decode s.wordAtPc = .ok i →
    tick p d s =
      match execWith d i { s with pc := s.pc + 2, await := false } with
      | .next t => .ok (if t.await then .waiting else .ok, t)
      | .fault e => .ok (.error e, { s with await := false, pc := if p = .advance then s.pc + 2 else s.pc })
      | .refused r => .error r) ∧
  ∀ (d : Draws) (i : Instr) (s : State), (∀ x nn, i ≠ .rnd x nn) → (∀ x, i ≠ .ldVxK x) →
    execWith d i s = exec i s

/-- Every operation of the host keeps the invariant and the FONT, from every state that has both, whether or not a run reaches it: ticks that err, loads and resets among them (40_interface_fetch_decode.md R140, R143; 20_memory.md R73, R75, R81; 60_exceptions.md R322). -/
def Obligations.HostStepKeepsInvariantAndFont : Prop :=
  ∀ (p : Params) (o : HostOp) (reply : HostReply) (s t : State), s.Inv →
    (∀ a : Fin 80, s.mem.read a.val = p.font[a.val]) → hostStep p o s = .ok (reply, t) →
    t.Inv ∧ ∀ a : Fin 80, t.mem.read a.val = p.font[a.val]
end

