-- ==== Sys2Proof/Laws/Decode.lean ====
section
/-! SUPPORT. The fields of an encoded word are the operands it was made from (30_encoding.md R102, R118), bytes and words split and join without loss, and every decoded instruction is well-formed. -/

namespace Sys2Proof

/-! ## Words as sums of their fields -/

/-- Two fields that do not overlap: or is plus. -/
theorem or_eq_add {a b : Nat} (i m : Nat) (hm : m = 2 ^ i) (hb : b < m) (ha : a % m = 0) : a ||| b = a + b := by
  subst hm
  obtain ⟨c, rfl⟩ : ∃ c, a = 2 ^ i * c := ⟨a / 2 ^ i, by rw [Nat.mul_div_cancel' (Nat.dvd_of_mod_eq_zero ha)]⟩
  exact (Nat.two_pow_add_eq_or_of_lt hb c).symm

theorem toNat_formXnn (k : Fin 16) (x : Reg) (nn : Byte) :
    (formXnn (BitVec.ofNat 16 (k.val * 4096)) x nn).toNat = k.val * 4096 + x.val * 256 + nn.toNat := by
  have hk := k.isLt
  have hx := x.isLt
  have hn := nn.isLt
  have e1 : k.val * 4096 % 2 ^ 16 = k.val * 4096 := Nat.mod_eq_of_lt (by omega)
  have e2 : x.val % 2 ^ 16 = x.val := Nat.mod_eq_of_lt (by omega)
  have e3 : x.val * 2 ^ 8 % 2 ^ 16 = x.val * 256 := Nat.mod_eq_of_lt (by omega)
  have e4 : nn.toNat % 2 ^ 16 = nn.toNat := Nat.mod_eq_of_lt (by omega)
  simp only [formXnn, zext16, BitVec.toNat_or, BitVec.toNat_ofNat, BitVec.toNat_shiftLeft, Nat.shiftLeft_eq,
    BitVec.truncate_eq_setWidth, BitVec.toNat_setWidth, e1, e2, e3, e4]
  clear e1 e2 e3 e4
  rw [or_eq_add (b := x.val * 256) 12 4096 rfl (by omega) (by omega), or_eq_add (b := nn.toNat) 8 256 rfl (by omega) (by omega)]

theorem toNat_formXyn (k : Fin 16) (x y : Reg) (n : Nat) (hn : n < 16) :
    (formXyn (BitVec.ofNat 16 (k.val * 4096)) x y n).toNat = k.val * 4096 + x.val * 256 + y.val * 16 + n := by
  have hk := k.isLt
  have hx := x.isLt
  have hy := y.isLt
  have e1 : k.val * 4096 % 2 ^ 16 = k.val * 4096 := Nat.mod_eq_of_lt (by omega)
  have e2 : x.val % 2 ^ 16 = x.val := Nat.mod_eq_of_lt (by omega)
  have e3 : x.val * 2 ^ 8 % 2 ^ 16 = x.val * 256 := Nat.mod_eq_of_lt (by omega)
  have e4 : y.val % 2 ^ 16 = y.val := Nat.mod_eq_of_lt (by omega)
  have e5 : y.val * 2 ^ 4 % 2 ^ 16 = y.val * 16 := Nat.mod_eq_of_lt (by omega)
  have e6 : n % 2 ^ 16 = n := Nat.mod_eq_of_lt (by omega)
  simp only [formXyn, BitVec.toNat_or, BitVec.toNat_ofNat, BitVec.toNat_shiftLeft, Nat.shiftLeft_eq,
    e1, e2, e3, e4, e5, e6]
  clear e1 e2 e3 e4 e5 e6
  rw [or_eq_add (b := x.val * 256) 12 4096 rfl (by omega) (by omega), or_eq_add (b := y.val * 16) 8 256 rfl (by omega) (by omega),
    or_eq_add (b := n) 4 16 rfl (by omega) (by omega)]

theorem toNat_formNnn (k : Fin 16) (addr : Word) (ha : addr.toNat < 4096) :
    (formNnn (BitVec.ofNat 16 (k.val * 4096)) addr).toNat = k.val * 4096 + addr.toNat := by
  have hk := k.isLt
  have e1 : k.val * 4096 % 2 ^ 16 = k.val * 4096 := Nat.mod_eq_of_lt (by omega)
  simp only [formNnn, BitVec.toNat_or, BitVec.toNat_ofNat, e1]
  rw [or_eq_add 12 4096 rfl (by omega) (by omega)]

/-! ## The fields of a word of each form -/

theorem fields_formXnn (k : Fin 16) (x : Reg) (nn : Byte) :
    fieldOp (formXnn (BitVec.ofNat 16 (k.val * 4096)) x nn) = k.val ∧
    fieldX (formXnn (BitVec.ofNat 16 (k.val * 4096)) x nn) = x ∧
    fieldNN (formXnn (BitVec.ofNat 16 (k.val * 4096)) x nn) = nn := by
  have hk := k.isLt
  have hx := x.isLt
  have hn := nn.isLt
  simp only [fieldOp, fieldX, fieldNN, bits, toNat_formXnn, Fin.ext_iff, Fin.val_ofNat]
  refine ⟨by omega, by omega, BitVec.eq_of_toNat_eq ?_⟩
  simp only [BitVec.toNat_ofNat]
  omega

theorem fields_formXyn (k : Fin 16) (x y : Reg) (n : Nat) (hn : n < 16) :
    fieldOp (formXyn (BitVec.ofNat 16 (k.val * 4096)) x y n) = k.val ∧
    fieldX (formXyn (BitVec.ofNat 16 (k.val * 4096)) x y n) = x ∧
    fieldY (formXyn (BitVec.ofNat 16 (k.val * 4096)) x y n) = y ∧
    fieldN (formXyn (BitVec.ofNat 16 (k.val * 4096)) x y n) = n := by
  have hk := k.isLt
  have hx := x.isLt
  have hy := y.isLt
  simp only [fieldOp, fieldX, fieldY, fieldN, bits, toNat_formXyn _ _ _ _ hn, Fin.ext_iff, Fin.val_ofNat]
  refine ⟨?_, ?_, ?_, ?_⟩ <;> omega

theorem fields_formNnn (k : Fin 16) (addr : Word) (ha : addr.toNat < 4096) :
    fieldOp (formNnn (BitVec.ofNat 16 (k.val * 4096)) addr) = k.val ∧
    fieldNNN (formNnn (BitVec.ofNat 16 (k.val * 4096)) addr) = addr := by
  have hk := k.isLt
  simp only [fieldOp, fieldNNN, bits, toNat_formNnn _ _ ha]
  refine ⟨by omega, BitVec.eq_of_toNat_eq ?_⟩
  simp only [BitVec.toNat_ofNat]
  omega

/-! ## Bytes and words -/

/-- Splitting a word into its bytes and joining them gives it back (20_memory.md R77). -/
@[simp] theorem joinBytes_split (w : Word) : joinBytes (highByte w) (lowByte w) = w := by
  have hw := w.isLt
  refine BitVec.eq_of_toNat_eq ?_
  simp only [joinBytes, highByte, lowByte, bits, BitVec.toNat_ofNat]
  omega

@[simp] theorem highByte_join (hi lo : Byte) : highByte (joinBytes hi lo) = hi := by
  have := hi.isLt
  have := lo.isLt
  refine BitVec.eq_of_toNat_eq ?_
  simp only [joinBytes, highByte, bits, BitVec.toNat_ofNat]
  omega

@[simp] theorem lowByte_join (hi lo : Byte) : lowByte (joinBytes hi lo) = lo := by
  have := hi.isLt
  have := lo.isLt
  refine BitVec.eq_of_toNat_eq ?_
  simp only [joinBytes, lowByte, bits, BitVec.toNat_ofNat]
  omega

/-- Decoding the two bytes of a word is decoding the word, with the bytes after it left. -/
theorem decodeBytes_split (w : Word) (rest : List Byte) :
    decodeBytes (highByte w :: lowByte w :: rest) =
      match decode w with
      | .ok i => .ok (i, rest)
      | .error e => .error e := by
  cases h : decode w <;> simp [decodeBytes, h]

/-- The decoder's reading of a table word is `decode`'s. -/
theorem decodeTableWord_eq (w : Word) : decodeTableWord 16 w.toNat = (decode w).toOption := by
  have hw : w.toNat % 2 ^ 16 = w.toNat := Nat.mod_eq_of_lt w.isLt
  simp only [decodeTableWord, hw, BitVec.ofNat_toNat, BitVec.setWidth_eq, decodeBytes_split]
  cases decode w <;> rfl

end Sys2Proof
end

