-- ==== Sys2Proof/Laws/Display.lean ====
section
/-! SUPPORT. The compositor: what one toggle and one draw do to each cell (44_display.md R262). -/

namespace Sys2Proof.Machine

theorem pixelIndex_lt (x y : Nat) : pixelIndex x y < 2048 := by
  simp only [pixelIndex, Config.dispH, Config.dispW]
  omega

/-- Toggling a cell flips it and no other (44_display.md R262). -/
theorem cell_toggle (f : Framebuffer) {p q : Nat} (hp : p < 2048) :
    (f.toggle p).cell q = if q = p then !f.cell q else f.cell q := by
  have hrow : p / 64 < 32 := by omega
  simp only [Framebuffer.toggle, Framebuffer.cell, Config.dispW, Vector.getElem?_setIfInBounds]
  by_cases hr : p / 64 = q / 64
  · rw [if_pos hr, if_pos hrow, ← hr]
    simp only [Option.getD_some, BitVec.getLsbD_xor, BitVec.getLsbD_twoPow]
    by_cases hc : q = p
    · subst hc
      simp [Nat.mod_lt]
    · have : p % 64 ≠ q % 64 := by omega
      simp [hc, this]
  · rw [if_neg hr, if_neg (by rintro rfl; exact hr rfl)]

/-- A blank framebuffer has every cell 0 (44_display.md R261). -/
theorem cell_blank (p : Nat) : Framebuffer.blank.cell p = false := by
  simp only [Framebuffer.blank, Framebuffer.cell, Config.dispW, Vector.getElem?_replicate]
  split_ifs <;> simp

/-- Two framebuffers with the same cells are equal. -/
theorem Framebuffer.ext_cells {f g : Framebuffer} (h : ∀ p < 2048, f.cell p = g.cell p) : f = g := by
  refine Vector.ext fun y hy => BitVec.eq_of_getLsbD_eq fun x hx => ?_
  have := h (y * 64 + x) (by omega)
  have hd : (y * 64 + x) / 64 = y := by omega
  have hm : (y * 64 + x) % 64 = x := by omega
  simpa [Framebuffer.cell, hd, hm, hy] using this

/-- Drawing is one fold; its collision bit starts where it is. -/
theorem foldl_drawPixel (ps : List Nat) (hps : ps.Nodup) (hlt : ∀ p ∈ ps, p < 2048) :
    ∀ (f : Framebuffer) (c : Bool),
      (∀ q, (ps.foldl drawPixel (f, c)).1.cell q = if q ∈ ps then !f.cell q else f.cell q) ∧
      (ps.foldl drawPixel (f, c)).2 = (c || ps.any f.cell) := by
  induction ps with
  | nil => exact fun f c => ⟨fun q => by simp, by simp⟩
  | cons p ps ih =>
    intro f c
    have hp : p < 2048 := hlt p (by simp)
    obtain ⟨hnot, hnd⟩ := List.nodup_cons.1 hps
    obtain ⟨h1, h2⟩ := ih hnd (fun q hq => hlt q (by simp [hq])) (f.toggle p) (c || f.cell p)
    refine ⟨fun q => ?_, ?_⟩
    · rw [List.foldl_cons, drawPixel, h1, cell_toggle f hp]
      by_cases hq : q = p
      · subst hq; simp [hnot]
      · simp [hq]
    · have hany : ps.any (f.toggle p).cell = ps.any f.cell := by
        rw [Bool.eq_iff_iff]
        simp only [List.any_eq_true]
        refine exists_congr fun q => and_congr_right fun hq => ?_
        rw [cell_toggle f hp, if_neg (by rintro rfl; exact hnot hq)]
      rw [List.foldl_cons, drawPixel, h2, hany]
      simp [Bool.or_assoc]

/-- A draw of distinct pixels flips exactly those, and reports a collision just when one of them was lit (44_display.md R262, R266, R268). -/
theorem draw_eq (f : Framebuffer) {ps : List Nat} (hps : ps.Nodup) (hlt : ∀ p ∈ ps, p < 2048) :
    (∀ q, (draw f ps).1.cell q = if q ∈ ps then !f.cell q else f.cell q) ∧ (draw f ps).2 = ps.any f.cell := by
  simpa [draw] using foldl_drawPixel ps hps hlt f false

/-- The pixels a sprite lights: those at a column and row of it whose bit is 1 (44_display.md R262). -/
theorem mem_spritePixels {m : Memory} {x0 y0 base n p : Nat} :
    p ∈ spritePixels m x0 y0 base n ↔
      ∃ row < n, ∃ col < 8, (m.read (base + row)).getLsbD (7 - col) = true ∧ p = pixelIndex (x0 + col) (y0 + row) := by
  simp only [spritePixels, rowPixels, List.mem_flatMap, List.mem_range, List.mem_map, List.mem_filter]
  constructor
  · rintro ⟨row, hr, col, ⟨hc, hb⟩, rfl⟩
    exact ⟨row, hr, col, hc, hb, rfl⟩
  · rintro ⟨row, hr, col, hc, hb, rfl⟩
    exact ⟨row, hr, col, ⟨hc, hb⟩, rfl⟩

theorem spritePixels_lt {m : Memory} {x0 y0 base n p : Nat} (h : p ∈ spritePixels m x0 y0 base n) : p < 2048 := by
  obtain ⟨row, _, col, _, _, rfl⟩ := mem_spritePixels.1 h
  exact pixelIndex_lt _ _

/-- Within one draw no pixel is toggled twice (44_display.md R266). -/
theorem spritePixels_nodup (m : Memory) (x0 y0 base : Nat) {n : Nat} (hn : n < 16) :
    (spritePixels m x0 y0 base n).Nodup := by
  unfold spritePixels
  refine List.nodup_flatMap.2 ⟨fun row _ => ?_, ?_⟩
  · refine List.Nodup.map_on ?_ (List.nodup_range.filter _)
    intro a ha b hb hab
    simp only [List.mem_filter, List.mem_range] at ha hb
    simp only [pixelIndex, Config.dispH, Config.dispW] at hab
    omega
  · refine List.Pairwise.imp_of_mem ?_ (List.nodup_range (n := n))
    intro a b ha hb hab
    simp only [List.mem_range] at ha hb
    refine List.disjoint_left.2 fun p hpa hpb => ?_
    simp only [rowPixels, List.mem_map, List.mem_filter, List.mem_range] at hpa hpb
    obtain ⟨c, _, rfl⟩ := hpa
    obtain ⟨d, _, hd⟩ := hpb
    simp only [pixelIndex, Config.dispH, Config.dispW] at hd
    omega

end Sys2Proof.Machine
end

