-- ==== Sys2Proof/Laws/Memory.lean ====
section
/-! SUPPORT. The laws of memory: reading after writing, the canonical form every operation keeps, and what the checks of a multi-byte access answer. -/

namespace Sys2Proof.Machine

/-! ## The canonical form -/

theorem Memory.wf_nil : Memory.wf [] := by simp [Memory.wf]

/-- The tail of a canonical list is canonical and lies above its head. -/
theorem Memory.wf_cons {k : Nat} {c : Byte} {m : Memory} :
    Memory.wf ((k, c) :: m) ↔
      (∀ d ∈ m, k < d.1) ∧ (k < 4096 ∧ c ≠ unlistedByte k) ∧ Memory.wf m := by
  simp only [Memory.wf, List.pairwise_cons, List.forall_mem_cons, Config.memSize]
  tauto

/-- An address that no entry holds reads as an unlisted one. -/
theorem Memory.read_of_not_mem {m : Memory} {a : Nat} (h : ∀ d ∈ m, d.1 ≠ a) : m.read a = unlistedByte a := by
  induction m with
  | nil => rfl
  | cons d m ih =>
    obtain ⟨k, c⟩ := d
    have hk : a ≠ k := fun e => h (k, c) (by simp) e.symm
    rw [Memory.read, if_neg hk]
    exact ih fun d hd => h d (by simp [hd])

/-- The entries of a list after a write are old ones or the written one. -/
theorem Memory.mem_write {m : Memory} {a : Nat} {b : Byte} {d : Host.Cell} (h : d ∈ m.write a b) :
    d ∈ m ∨ d = (a, b) := by
  induction m with
  | nil =>
    unfold Memory.write at h
    split at h <;> simp_all
  | cons e m ih =>
    obtain ⟨k, c⟩ := e
    unfold Memory.write at h
    split_ifs at h <;> simp only [List.mem_cons] at h ⊢ <;> tauto

/-- Every write inside memory keeps the canonical form. -/
theorem Memory.wf_write {m : Memory} {a : Nat} {b : Byte} (hm : m.wf) (ha : a < 4096) : (m.write a b).wf := by
  induction m with
  | nil =>
    unfold Memory.write
    split_ifs with hb
    · exact Memory.wf_nil
    · exact Memory.wf_cons.2 ⟨by simp, ⟨ha, hb⟩, Memory.wf_nil⟩
  | cons e m ih =>
    obtain ⟨k, c⟩ := e
    obtain ⟨hlt, hk, hwf⟩ := Memory.wf_cons.1 hm
    unfold Memory.write
    split_ifs with h1 h2 h3 h4
    · exact hm
    · refine Memory.wf_cons.2 ⟨?_, ⟨ha, h2⟩, hm⟩
      rintro d hd
      rcases List.mem_cons.1 hd with rfl | hd
      · exact h1
      · exact h1.trans (hlt d hd)
    · exact hwf
    · subst h3
      exact Memory.wf_cons.2 ⟨hlt, ⟨ha, h4⟩, hwf⟩
    · refine Memory.wf_cons.2 ⟨?_, hk, ih hwf⟩
      intro d hd
      rcases Memory.mem_write hd with hd | rfl
      · exact hlt d hd
      · exact lt_of_le_of_ne (not_lt.1 h1) (Ne.symm h3)

/-! ## Reading after writing -/

/-- A write sets its own byte and no other (20_memory.md R83, R86). -/
theorem Memory.read_write {m : Memory} (hm : m.wf) (a q : Nat) (b : Byte) :
    (m.write a b).read q = if q = a then b else m.read q := by
  induction m with
  | nil =>
    unfold Memory.write
    split_ifs with h1 h2 h2
    · subst h2
      simpa [Memory.read] using h1.symm
    · rfl
    · simp [Memory.read, h2]
    · simp [Memory.read, h2]
  | cons e m ih =>
    obtain ⟨k, c⟩ := e
    obtain ⟨hlt, hk, hwf⟩ := Memory.wf_cons.1 hm
    have above : ∀ x ≤ k, Memory.read m x = unlistedByte x := fun x hx =>
      Memory.read_of_not_mem fun d hd => by have := hlt d hd; omega
    unfold Memory.write
    by_cases hq : q = a
    · subst hq
      rw [if_pos rfl]
      split_ifs with h1 h2 h3 h4
      · rw [Memory.read, if_neg (by omega), above q (by omega), h2]
      · rw [Memory.read, if_pos rfl]
      · rw [above q (by omega), h4]
      · rw [Memory.read, if_pos rfl]
      · rw [Memory.read, if_neg h3, ih hwf, if_pos rfl]
    · rw [if_neg hq]
      split_ifs with h1 h2 h3 h4
      · rfl
      · rw [Memory.read, if_neg hq]
      · rw [Memory.read, if_neg (by omega)]
      · rw [Memory.read, Memory.read, if_neg hq, if_neg (by omega)]
      · rw [Memory.read, Memory.read, ih hwf, if_neg hq]

/-- Consecutive writes inside memory keep the canonical form. -/
theorem Memory.wf_store {bs : List Byte} : ∀ {m : Memory} {a : Nat}, m.wf → a + bs.length ≤ 4096 → (m.store a bs).wf := by
  induction bs with
  | nil => exact fun hm _ => hm
  | cons b bs ih =>
    intro m a hm ha
    simp only [List.length_cons] at ha
    exact ih (Memory.wf_write hm (by omega)) (by omega)

/-- Consecutive writes set the bytes they name and no other. -/
theorem Memory.read_store {bs : List Byte} :
    ∀ {m : Memory} {a : Nat}, m.wf → a + bs.length ≤ 4096 → ∀ q : Nat,
      (m.store a bs).read q = if h : a ≤ q ∧ q < a + bs.length then bs[q - a] else m.read q := by
  induction bs with
  | nil =>
    intro m a _ _ q
    rw [dif_neg (by simp only [List.length_nil]; omega)]
    rfl
  | cons b bs ih =>
    intro m a hm ha q
    simp only [List.length_cons] at ha
    rw [Memory.store, ih (Memory.wf_write hm (by omega)) (by omega)]
    by_cases hq : a + 1 ≤ q ∧ q < a + 1 + bs.length
    · rw [dif_pos hq, dif_pos (by simp only [List.length_cons]; omega)]
      obtain ⟨j, rfl⟩ : ∃ j, q = a + 1 + j := ⟨q - (a + 1), by omega⟩
      have h1 : a + 1 + j - a = j + 1 := by omega
      have h2 : a + 1 + j - (a + 1) = j := by omega
      simp only [h1, h2, List.getElem_cons_succ]
    · rw [dif_neg hq, Memory.read_write hm]
      split_ifs with h1 h2 h2
      · subst h1; simp
      · simp only [List.length_cons] at h2; omega
      · simp only [List.length_cons] at h2; omega
      · rfl

/-- An address outside the stored bytes reads as before. -/
theorem Memory.read_store_outside {m : Memory} {a q : Nat} {bs : List Byte} (hm : m.wf) (ha : a + bs.length ≤ 4096)
    (hq : q < a ∨ a + bs.length ≤ q) : (m.store a bs).read q = m.read q := by
  rw [Memory.read_store hm ha, dif_neg (by omega)]

/-! ## The checks of a multi-byte access -/

/-- The first failing check, if the addresses before it pass. -/
theorem firstFault_eq_none {check : Nat → Option Fault} {base n : Nat} :
    firstFault check base n = none ↔ ∀ k < n, check (base + k) = none := by
  simp [firstFault]

/-- The least failing address gives the error (43_index_memory.md R247). -/
theorem firstFault_eq_some {check : Nat → Option Fault} {base n k : Nat} {e : Fault} (hk : k < n)
    (hbefore : ∀ j < k, check (base + j) = none) (he : check (base + k) = some e) :
    firstFault check base n = some e := by
  obtain ⟨r, rfl⟩ : ∃ r, n = k + 1 + r := ⟨n - (k + 1), by omega⟩
  have hnone : ((List.range k).findSome? fun j => check (base + j)) = none := by simpa using hbefore
  rw [firstFault, List.range_add, List.findSome?_append, List.range_succ, List.findSome?_append, hnone]
  simp [he]

/-- A read of n bytes at base passes just when it ends inside memory; otherwise the least address of 4096 or more is reported (20_memory.md R72; 43_index_memory.md R247). -/
theorem readFaults_eq (aIns : Word) (base n : Nat) :
    readFaults aIns base n = if n = 0 ∨ base + n ≤ 4096 then none else some (.outOfBounds (max base 4096) aIns) := by
  unfold readFaults
  split_ifs with h
  · refine firstFault_eq_none.2 fun k hk => ?_
    simp only [readFault, Config.memSize]
    rw [if_neg (by omega)]
  · have hpos : max base 4096 - base < n := by omega
    refine firstFault_eq_some hpos (fun j hj => ?_) ?_
    · simp only [readFault, Config.memSize]
      rw [if_neg (by omega)]
    · have : base + (max base 4096 - base) = max base 4096 := by omega
      simp only [readFault, Config.memSize, this]
      rw [if_pos (by omega)]

/-- A write of n > 0 bytes at base passes just when it lies in [80, 4096); a base below 80 is the ReadOnlyWrite reported, otherwise the least address of 4096 or more (20_memory.md R73; 43_index_memory.md R247). -/
theorem writeFaults_eq (aIns : Word) (base n : Nat) (hn : 0 < n) :
    writeFaults aIns base n =
      if base < 80 then some (.readOnlyWrite base aIns)
      else if base + n ≤ 4096 then none
      else some (.outOfBounds (max base 4096) aIns) := by
  unfold writeFaults
  split_ifs with h1 h2
  · refine firstFault_eq_some hn (fun j hj => by omega) ?_
    simp only [writeFault, Config.memSize, Config.fontSize, Nat.add_zero]
    rw [if_neg (by omega), if_pos h1]
  · refine firstFault_eq_none.2 fun k hk => ?_
    simp only [writeFault, Config.memSize, Config.fontSize]
    rw [if_neg (by omega), if_neg (by omega)]
  · have hpos : max base 4096 - base < n := by omega
    refine firstFault_eq_some hpos (fun j hj => ?_) ?_
    · simp only [writeFault, Config.memSize, Config.fontSize]
      rw [if_neg (by omega), if_neg (by omega)]
    · have : base + (max base 4096 - base) = max base 4096 := by omega
      simp only [writeFault, Config.memSize, this]
      rw [if_pos (by omega)]

/-- Reset memory is in canonical form. -/
theorem State.reset_memWf : State.reset.mem.wf := Memory.wf_nil

/-- The canonical state for any FONT has its memory in canonical form (70_reset_and_hazards.md R340). -/
theorem State.resetWith_memWf (font : Config.Font) : (State.resetWith font).mem.wf :=
  Memory.wf_store Memory.wf_nil (by simp)

end Sys2Proof.Machine
end

