-- ==== Sys2Proof/Laws/State.lean ====
section
/-! SUPPORT. The small lemmas of the state's updates: one for each field and each update, true by rfl, so that no later proof unfolds a record update; then what each update leaves of the readings `reg`, `pressed`, `aIns` and `ea`. -/

namespace Sys2Proof.Machine

/-! ### setReg -/

@[simp] theorem State.setReg_mem (s : State) (r : Reg) (b : Byte) : (s.setReg r b).mem = s.mem := rfl
@[simp] theorem State.setReg_v (s : State) (r : Reg) (b : Byte) : (s.setReg r b).v = s.v.set r.val b := rfl
@[simp] theorem State.setReg_i (s : State) (r : Reg) (b : Byte) : (s.setReg r b).i = s.i := rfl
@[simp] theorem State.setReg_pc (s : State) (r : Reg) (b : Byte) : (s.setReg r b).pc = s.pc := rfl
@[simp] theorem State.setReg_stack (s : State) (r : Reg) (b : Byte) : (s.setReg r b).stack = s.stack := rfl
@[simp] theorem State.setReg_sp (s : State) (r : Reg) (b : Byte) : (s.setReg r b).sp = s.sp := rfl
@[simp] theorem State.setReg_dt (s : State) (r : Reg) (b : Byte) : (s.setReg r b).dt = s.dt := rfl
@[simp] theorem State.setReg_st (s : State) (r : Reg) (b : Byte) : (s.setReg r b).st = s.st := rfl
@[simp] theorem State.setReg_key (s : State) (r : Reg) (b : Byte) : (s.setReg r b).key = s.key := rfl
@[simp] theorem State.setReg_fb (s : State) (r : Reg) (b : Byte) : (s.setReg r b).fb = s.fb := rfl
@[simp] theorem State.setReg_await (s : State) (r : Reg) (b : Byte) : (s.setReg r b).await = s.await := rfl
@[simp] theorem State.setReg_draws (s : State) (r : Reg) (b : Byte) : (s.setReg r b).draws = s.draws := rfl
@[simp] theorem State.setReg_pressed (s : State) (r : Reg) (b : Byte) (q : Reg) : (s.setReg r b).pressed q = s.pressed q := rfl
@[simp] theorem State.setReg_pressedKeys (s : State) (r : Reg) (b : Byte) : (s.setReg r b).pressedKeys = s.pressedKeys := rfl
@[simp] theorem State.setReg_aIns (s : State) (r : Reg) (b : Byte) : (s.setReg r b).aIns = s.aIns := rfl
@[simp] theorem State.setReg_ea (s : State) (r : Reg) (b : Byte) (n : Nat) : (s.setReg r b).ea n = s.ea n := rfl

/-! ### setI -/

@[simp] theorem State.setI_mem (s : State) (w : Word) : (s.setI w).mem = s.mem := rfl
@[simp] theorem State.setI_v (s : State) (w : Word) : (s.setI w).v = s.v := rfl
@[simp] theorem State.setI_i (s : State) (w : Word) : (s.setI w).i = w := rfl
@[simp] theorem State.setI_pc (s : State) (w : Word) : (s.setI w).pc = s.pc := rfl
@[simp] theorem State.setI_stack (s : State) (w : Word) : (s.setI w).stack = s.stack := rfl
@[simp] theorem State.setI_sp (s : State) (w : Word) : (s.setI w).sp = s.sp := rfl
@[simp] theorem State.setI_dt (s : State) (w : Word) : (s.setI w).dt = s.dt := rfl
@[simp] theorem State.setI_st (s : State) (w : Word) : (s.setI w).st = s.st := rfl
@[simp] theorem State.setI_key (s : State) (w : Word) : (s.setI w).key = s.key := rfl
@[simp] theorem State.setI_fb (s : State) (w : Word) : (s.setI w).fb = s.fb := rfl
@[simp] theorem State.setI_await (s : State) (w : Word) : (s.setI w).await = s.await := rfl
@[simp] theorem State.setI_draws (s : State) (w : Word) : (s.setI w).draws = s.draws := rfl
@[simp] theorem State.setI_reg (s : State) (w : Word) (q : Reg) : (s.setI w).reg q = s.reg q := rfl
@[simp] theorem State.setI_pressed (s : State) (w : Word) (q : Reg) : (s.setI w).pressed q = s.pressed q := rfl
@[simp] theorem State.setI_pressedKeys (s : State) (w : Word) : (s.setI w).pressedKeys = s.pressedKeys := rfl
@[simp] theorem State.setI_aIns (s : State) (w : Word) : (s.setI w).aIns = s.aIns := rfl

/-! ### setPc -/

@[simp] theorem State.setPc_mem (s : State) (w : Word) : (s.setPc w).mem = s.mem := rfl
@[simp] theorem State.setPc_v (s : State) (w : Word) : (s.setPc w).v = s.v := rfl
@[simp] theorem State.setPc_i (s : State) (w : Word) : (s.setPc w).i = s.i := rfl
@[simp] theorem State.setPc_pc (s : State) (w : Word) : (s.setPc w).pc = w := rfl
@[simp] theorem State.setPc_stack (s : State) (w : Word) : (s.setPc w).stack = s.stack := rfl
@[simp] theorem State.setPc_sp (s : State) (w : Word) : (s.setPc w).sp = s.sp := rfl
@[simp] theorem State.setPc_dt (s : State) (w : Word) : (s.setPc w).dt = s.dt := rfl
@[simp] theorem State.setPc_st (s : State) (w : Word) : (s.setPc w).st = s.st := rfl
@[simp] theorem State.setPc_key (s : State) (w : Word) : (s.setPc w).key = s.key := rfl
@[simp] theorem State.setPc_fb (s : State) (w : Word) : (s.setPc w).fb = s.fb := rfl
@[simp] theorem State.setPc_await (s : State) (w : Word) : (s.setPc w).await = s.await := rfl
@[simp] theorem State.setPc_draws (s : State) (w : Word) : (s.setPc w).draws = s.draws := rfl
@[simp] theorem State.setPc_reg (s : State) (w : Word) (q : Reg) : (s.setPc w).reg q = s.reg q := rfl
@[simp] theorem State.setPc_pressed (s : State) (w : Word) (q : Reg) : (s.setPc w).pressed q = s.pressed q := rfl
@[simp] theorem State.setPc_pressedKeys (s : State) (w : Word) : (s.setPc w).pressedKeys = s.pressedKeys := rfl
@[simp] theorem State.setPc_ea (s : State) (w : Word) (n : Nat) : (s.setPc w).ea n = s.ea n := rfl

/-! ### setDt -/

@[simp] theorem State.setDt_mem (s : State) (b : Byte) : (s.setDt b).mem = s.mem := rfl
@[simp] theorem State.setDt_v (s : State) (b : Byte) : (s.setDt b).v = s.v := rfl
@[simp] theorem State.setDt_i (s : State) (b : Byte) : (s.setDt b).i = s.i := rfl
@[simp] theorem State.setDt_pc (s : State) (b : Byte) : (s.setDt b).pc = s.pc := rfl
@[simp] theorem State.setDt_stack (s : State) (b : Byte) : (s.setDt b).stack = s.stack := rfl
@[simp] theorem State.setDt_sp (s : State) (b : Byte) : (s.setDt b).sp = s.sp := rfl
@[simp] theorem State.setDt_dt (s : State) (b : Byte) : (s.setDt b).dt = b := rfl
@[simp] theorem State.setDt_st (s : State) (b : Byte) : (s.setDt b).st = s.st := rfl
@[simp] theorem State.setDt_key (s : State) (b : Byte) : (s.setDt b).key = s.key := rfl
@[simp] theorem State.setDt_fb (s : State) (b : Byte) : (s.setDt b).fb = s.fb := rfl
@[simp] theorem State.setDt_await (s : State) (b : Byte) : (s.setDt b).await = s.await := rfl
@[simp] theorem State.setDt_draws (s : State) (b : Byte) : (s.setDt b).draws = s.draws := rfl
@[simp] theorem State.setDt_reg (s : State) (b : Byte) (q : Reg) : (s.setDt b).reg q = s.reg q := rfl
@[simp] theorem State.setDt_pressed (s : State) (b : Byte) (q : Reg) : (s.setDt b).pressed q = s.pressed q := rfl
@[simp] theorem State.setDt_pressedKeys (s : State) (b : Byte) : (s.setDt b).pressedKeys = s.pressedKeys := rfl
@[simp] theorem State.setDt_aIns (s : State) (b : Byte) : (s.setDt b).aIns = s.aIns := rfl
@[simp] theorem State.setDt_ea (s : State) (b : Byte) (n : Nat) : (s.setDt b).ea n = s.ea n := rfl

/-! ### setSt -/

@[simp] theorem State.setSt_mem (s : State) (b : Byte) : (s.setSt b).mem = s.mem := rfl
@[simp] theorem State.setSt_v (s : State) (b : Byte) : (s.setSt b).v = s.v := rfl
@[simp] theorem State.setSt_i (s : State) (b : Byte) : (s.setSt b).i = s.i := rfl
@[simp] theorem State.setSt_pc (s : State) (b : Byte) : (s.setSt b).pc = s.pc := rfl
@[simp] theorem State.setSt_stack (s : State) (b : Byte) : (s.setSt b).stack = s.stack := rfl
@[simp] theorem State.setSt_sp (s : State) (b : Byte) : (s.setSt b).sp = s.sp := rfl
@[simp] theorem State.setSt_dt (s : State) (b : Byte) : (s.setSt b).dt = s.dt := rfl
@[simp] theorem State.setSt_st (s : State) (b : Byte) : (s.setSt b).st = b := rfl
@[simp] theorem State.setSt_key (s : State) (b : Byte) : (s.setSt b).key = s.key := rfl
@[simp] theorem State.setSt_fb (s : State) (b : Byte) : (s.setSt b).fb = s.fb := rfl
@[simp] theorem State.setSt_await (s : State) (b : Byte) : (s.setSt b).await = s.await := rfl
@[simp] theorem State.setSt_draws (s : State) (b : Byte) : (s.setSt b).draws = s.draws := rfl
@[simp] theorem State.setSt_reg (s : State) (b : Byte) (q : Reg) : (s.setSt b).reg q = s.reg q := rfl
@[simp] theorem State.setSt_pressed (s : State) (b : Byte) (q : Reg) : (s.setSt b).pressed q = s.pressed q := rfl
@[simp] theorem State.setSt_pressedKeys (s : State) (b : Byte) : (s.setSt b).pressedKeys = s.pressedKeys := rfl
@[simp] theorem State.setSt_aIns (s : State) (b : Byte) : (s.setSt b).aIns = s.aIns := rfl
@[simp] theorem State.setSt_ea (s : State) (b : Byte) (n : Nat) : (s.setSt b).ea n = s.ea n := rfl

/-! ### setAwait -/

@[simp] theorem State.setAwait_mem (s : State) (b : Bool) : (s.setAwait b).mem = s.mem := rfl
@[simp] theorem State.setAwait_v (s : State) (b : Bool) : (s.setAwait b).v = s.v := rfl
@[simp] theorem State.setAwait_i (s : State) (b : Bool) : (s.setAwait b).i = s.i := rfl
@[simp] theorem State.setAwait_pc (s : State) (b : Bool) : (s.setAwait b).pc = s.pc := rfl
@[simp] theorem State.setAwait_stack (s : State) (b : Bool) : (s.setAwait b).stack = s.stack := rfl
@[simp] theorem State.setAwait_sp (s : State) (b : Bool) : (s.setAwait b).sp = s.sp := rfl
@[simp] theorem State.setAwait_dt (s : State) (b : Bool) : (s.setAwait b).dt = s.dt := rfl
@[simp] theorem State.setAwait_st (s : State) (b : Bool) : (s.setAwait b).st = s.st := rfl
@[simp] theorem State.setAwait_key (s : State) (b : Bool) : (s.setAwait b).key = s.key := rfl
@[simp] theorem State.setAwait_fb (s : State) (b : Bool) : (s.setAwait b).fb = s.fb := rfl
@[simp] theorem State.setAwait_await (s : State) (b : Bool) : (s.setAwait b).await = b := rfl
@[simp] theorem State.setAwait_draws (s : State) (b : Bool) : (s.setAwait b).draws = s.draws := rfl
@[simp] theorem State.setAwait_reg (s : State) (b : Bool) (q : Reg) : (s.setAwait b).reg q = s.reg q := rfl
@[simp] theorem State.setAwait_pressed (s : State) (b : Bool) (q : Reg) : (s.setAwait b).pressed q = s.pressed q := rfl
@[simp] theorem State.setAwait_pressedKeys (s : State) (b : Bool) : (s.setAwait b).pressedKeys = s.pressedKeys := rfl
@[simp] theorem State.setAwait_aIns (s : State) (b : Bool) : (s.setAwait b).aIns = s.aIns := rfl
@[simp] theorem State.setAwait_ea (s : State) (b : Bool) (n : Nat) : (s.setAwait b).ea n = s.ea n := rfl

/-! ### setFb -/

@[simp] theorem State.setFb_mem (s : State) (f : Framebuffer) : (s.setFb f).mem = s.mem := rfl
@[simp] theorem State.setFb_v (s : State) (f : Framebuffer) : (s.setFb f).v = s.v := rfl
@[simp] theorem State.setFb_i (s : State) (f : Framebuffer) : (s.setFb f).i = s.i := rfl
@[simp] theorem State.setFb_pc (s : State) (f : Framebuffer) : (s.setFb f).pc = s.pc := rfl
@[simp] theorem State.setFb_stack (s : State) (f : Framebuffer) : (s.setFb f).stack = s.stack := rfl
@[simp] theorem State.setFb_sp (s : State) (f : Framebuffer) : (s.setFb f).sp = s.sp := rfl
@[simp] theorem State.setFb_dt (s : State) (f : Framebuffer) : (s.setFb f).dt = s.dt := rfl
@[simp] theorem State.setFb_st (s : State) (f : Framebuffer) : (s.setFb f).st = s.st := rfl
@[simp] theorem State.setFb_key (s : State) (f : Framebuffer) : (s.setFb f).key = s.key := rfl
@[simp] theorem State.setFb_fb (s : State) (f : Framebuffer) : (s.setFb f).fb = f := rfl
@[simp] theorem State.setFb_await (s : State) (f : Framebuffer) : (s.setFb f).await = s.await := rfl
@[simp] theorem State.setFb_draws (s : State) (f : Framebuffer) : (s.setFb f).draws = s.draws := rfl
@[simp] theorem State.setFb_reg (s : State) (f : Framebuffer) (q : Reg) : (s.setFb f).reg q = s.reg q := rfl
@[simp] theorem State.setFb_pressed (s : State) (f : Framebuffer) (q : Reg) : (s.setFb f).pressed q = s.pressed q := rfl
@[simp] theorem State.setFb_pressedKeys (s : State) (f : Framebuffer) : (s.setFb f).pressedKeys = s.pressedKeys := rfl
@[simp] theorem State.setFb_aIns (s : State) (f : Framebuffer) : (s.setFb f).aIns = s.aIns := rfl
@[simp] theorem State.setFb_ea (s : State) (f : Framebuffer) (n : Nat) : (s.setFb f).ea n = s.ea n := rfl

/-! ### setKeyAt -/

@[simp] theorem State.setKeyAt_mem (s : State) (k : Reg) (b : Bool) : (s.setKeyAt k b).mem = s.mem := rfl
@[simp] theorem State.setKeyAt_v (s : State) (k : Reg) (b : Bool) : (s.setKeyAt k b).v = s.v := rfl
@[simp] theorem State.setKeyAt_i (s : State) (k : Reg) (b : Bool) : (s.setKeyAt k b).i = s.i := rfl
@[simp] theorem State.setKeyAt_pc (s : State) (k : Reg) (b : Bool) : (s.setKeyAt k b).pc = s.pc := rfl
@[simp] theorem State.setKeyAt_stack (s : State) (k : Reg) (b : Bool) : (s.setKeyAt k b).stack = s.stack := rfl
@[simp] theorem State.setKeyAt_sp (s : State) (k : Reg) (b : Bool) : (s.setKeyAt k b).sp = s.sp := rfl
@[simp] theorem State.setKeyAt_dt (s : State) (k : Reg) (b : Bool) : (s.setKeyAt k b).dt = s.dt := rfl
@[simp] theorem State.setKeyAt_st (s : State) (k : Reg) (b : Bool) : (s.setKeyAt k b).st = s.st := rfl
@[simp] theorem State.setKeyAt_key (s : State) (k : Reg) (b : Bool) : (s.setKeyAt k b).key = s.key.set k.val b := rfl
@[simp] theorem State.setKeyAt_fb (s : State) (k : Reg) (b : Bool) : (s.setKeyAt k b).fb = s.fb := rfl
@[simp] theorem State.setKeyAt_await (s : State) (k : Reg) (b : Bool) : (s.setKeyAt k b).await = s.await := rfl
@[simp] theorem State.setKeyAt_draws (s : State) (k : Reg) (b : Bool) : (s.setKeyAt k b).draws = s.draws := rfl
@[simp] theorem State.setKeyAt_reg (s : State) (k : Reg) (b : Bool) (q : Reg) : (s.setKeyAt k b).reg q = s.reg q := rfl
@[simp] theorem State.setKeyAt_aIns (s : State) (k : Reg) (b : Bool) : (s.setKeyAt k b).aIns = s.aIns := rfl
@[simp] theorem State.setKeyAt_ea (s : State) (k : Reg) (b : Bool) (n : Nat) : (s.setKeyAt k b).ea n = s.ea n := rfl

/-! ### nextDraw -/

@[simp] theorem State.nextDraw_mem (s : State) : (s.nextDraw).mem = s.mem := rfl
@[simp] theorem State.nextDraw_v (s : State) : (s.nextDraw).v = s.v := rfl
@[simp] theorem State.nextDraw_i (s : State) : (s.nextDraw).i = s.i := rfl
@[simp] theorem State.nextDraw_pc (s : State) : (s.nextDraw).pc = s.pc := rfl
@[simp] theorem State.nextDraw_stack (s : State) : (s.nextDraw).stack = s.stack := rfl
@[simp] theorem State.nextDraw_sp (s : State) : (s.nextDraw).sp = s.sp := rfl
@[simp] theorem State.nextDraw_dt (s : State) : (s.nextDraw).dt = s.dt := rfl
@[simp] theorem State.nextDraw_st (s : State) : (s.nextDraw).st = s.st := rfl
@[simp] theorem State.nextDraw_key (s : State) : (s.nextDraw).key = s.key := rfl
@[simp] theorem State.nextDraw_fb (s : State) : (s.nextDraw).fb = s.fb := rfl
@[simp] theorem State.nextDraw_await (s : State) : (s.nextDraw).await = s.await := rfl
@[simp] theorem State.nextDraw_draws (s : State) : (s.nextDraw).draws = s.draws + 1 := rfl
@[simp] theorem State.nextDraw_reg (s : State) (q : Reg) : (s.nextDraw).reg q = s.reg q := rfl
@[simp] theorem State.nextDraw_pressed (s : State) (q : Reg) : (s.nextDraw).pressed q = s.pressed q := rfl
@[simp] theorem State.nextDraw_pressedKeys (s : State) : (s.nextDraw).pressedKeys = s.pressedKeys := rfl
@[simp] theorem State.nextDraw_aIns (s : State) : (s.nextDraw).aIns = s.aIns := rfl
@[simp] theorem State.nextDraw_ea (s : State) (n : Nat) : (s.nextDraw).ea n = s.ea n := rfl

/-! ### storeBytes -/

@[simp] theorem State.storeBytes_mem (s : State) (a : Nat) (bs : List Byte) : (s.storeBytes a bs).mem = s.mem.store a bs := rfl
@[simp] theorem State.storeBytes_v (s : State) (a : Nat) (bs : List Byte) : (s.storeBytes a bs).v = s.v := rfl
@[simp] theorem State.storeBytes_i (s : State) (a : Nat) (bs : List Byte) : (s.storeBytes a bs).i = s.i := rfl
@[simp] theorem State.storeBytes_pc (s : State) (a : Nat) (bs : List Byte) : (s.storeBytes a bs).pc = s.pc := rfl
@[simp] theorem State.storeBytes_stack (s : State) (a : Nat) (bs : List Byte) : (s.storeBytes a bs).stack = s.stack := rfl
@[simp] theorem State.storeBytes_sp (s : State) (a : Nat) (bs : List Byte) : (s.storeBytes a bs).sp = s.sp := rfl
@[simp] theorem State.storeBytes_dt (s : State) (a : Nat) (bs : List Byte) : (s.storeBytes a bs).dt = s.dt := rfl
@[simp] theorem State.storeBytes_st (s : State) (a : Nat) (bs : List Byte) : (s.storeBytes a bs).st = s.st := rfl
@[simp] theorem State.storeBytes_key (s : State) (a : Nat) (bs : List Byte) : (s.storeBytes a bs).key = s.key := rfl
@[simp] theorem State.storeBytes_fb (s : State) (a : Nat) (bs : List Byte) : (s.storeBytes a bs).fb = s.fb := rfl
@[simp] theorem State.storeBytes_await (s : State) (a : Nat) (bs : List Byte) : (s.storeBytes a bs).await = s.await := rfl
@[simp] theorem State.storeBytes_draws (s : State) (a : Nat) (bs : List Byte) : (s.storeBytes a bs).draws = s.draws := rfl
@[simp] theorem State.storeBytes_reg (s : State) (a : Nat) (bs : List Byte) (q : Reg) : (s.storeBytes a bs).reg q = s.reg q := rfl
@[simp] theorem State.storeBytes_pressed (s : State) (a : Nat) (bs : List Byte) (q : Reg) : (s.storeBytes a bs).pressed q = s.pressed q := rfl
@[simp] theorem State.storeBytes_pressedKeys (s : State) (a : Nat) (bs : List Byte) : (s.storeBytes a bs).pressedKeys = s.pressedKeys := rfl
@[simp] theorem State.storeBytes_aIns (s : State) (a : Nat) (bs : List Byte) : (s.storeBytes a bs).aIns = s.aIns := rfl
@[simp] theorem State.storeBytes_ea (s : State) (a : Nat) (bs : List Byte) (n : Nat) : (s.storeBytes a bs).ea n = s.ea n := rfl

/-! ### loadRegs -/

@[simp] theorem State.loadRegs_mem (s : State) (x : Reg) (a : Nat) : (s.loadRegs x a).mem = s.mem := rfl
@[simp] theorem State.loadRegs_v (s : State) (x : Reg) (a : Nat) : (s.loadRegs x a).v = Vector.ofFn fun k => if k.val ≤ x.val then s.mem.read (a + k.val) else s.v[k.val] := rfl
@[simp] theorem State.loadRegs_i (s : State) (x : Reg) (a : Nat) : (s.loadRegs x a).i = s.i := rfl
@[simp] theorem State.loadRegs_pc (s : State) (x : Reg) (a : Nat) : (s.loadRegs x a).pc = s.pc := rfl
@[simp] theorem State.loadRegs_stack (s : State) (x : Reg) (a : Nat) : (s.loadRegs x a).stack = s.stack := rfl
@[simp] theorem State.loadRegs_sp (s : State) (x : Reg) (a : Nat) : (s.loadRegs x a).sp = s.sp := rfl
@[simp] theorem State.loadRegs_dt (s : State) (x : Reg) (a : Nat) : (s.loadRegs x a).dt = s.dt := rfl
@[simp] theorem State.loadRegs_st (s : State) (x : Reg) (a : Nat) : (s.loadRegs x a).st = s.st := rfl
@[simp] theorem State.loadRegs_key (s : State) (x : Reg) (a : Nat) : (s.loadRegs x a).key = s.key := rfl
@[simp] theorem State.loadRegs_fb (s : State) (x : Reg) (a : Nat) : (s.loadRegs x a).fb = s.fb := rfl
@[simp] theorem State.loadRegs_await (s : State) (x : Reg) (a : Nat) : (s.loadRegs x a).await = s.await := rfl
@[simp] theorem State.loadRegs_draws (s : State) (x : Reg) (a : Nat) : (s.loadRegs x a).draws = s.draws := rfl
@[simp] theorem State.loadRegs_pressed (s : State) (x : Reg) (a : Nat) (q : Reg) : (s.loadRegs x a).pressed q = s.pressed q := rfl
@[simp] theorem State.loadRegs_pressedKeys (s : State) (x : Reg) (a : Nat) : (s.loadRegs x a).pressedKeys = s.pressedKeys := rfl
@[simp] theorem State.loadRegs_aIns (s : State) (x : Reg) (a : Nat) : (s.loadRegs x a).aIns = s.aIns := rfl
@[simp] theorem State.loadRegs_ea (s : State) (x : Reg) (a : Nat) (n : Nat) : (s.loadRegs x a).ea n = s.ea n := rfl

/-! ### setFlag -/

@[simp] theorem State.setFlag_mem (s : State) (f : Bool) : (s.setFlag f).mem = s.mem := rfl
@[simp] theorem State.setFlag_v (s : State) (f : Bool) : (s.setFlag f).v = s.v.set 15 (flagByte f) := rfl
@[simp] theorem State.setFlag_i (s : State) (f : Bool) : (s.setFlag f).i = s.i := rfl
@[simp] theorem State.setFlag_pc (s : State) (f : Bool) : (s.setFlag f).pc = s.pc := rfl
@[simp] theorem State.setFlag_stack (s : State) (f : Bool) : (s.setFlag f).stack = s.stack := rfl
@[simp] theorem State.setFlag_sp (s : State) (f : Bool) : (s.setFlag f).sp = s.sp := rfl
@[simp] theorem State.setFlag_dt (s : State) (f : Bool) : (s.setFlag f).dt = s.dt := rfl
@[simp] theorem State.setFlag_st (s : State) (f : Bool) : (s.setFlag f).st = s.st := rfl
@[simp] theorem State.setFlag_key (s : State) (f : Bool) : (s.setFlag f).key = s.key := rfl
@[simp] theorem State.setFlag_fb (s : State) (f : Bool) : (s.setFlag f).fb = s.fb := rfl
@[simp] theorem State.setFlag_await (s : State) (f : Bool) : (s.setFlag f).await = s.await := rfl
@[simp] theorem State.setFlag_draws (s : State) (f : Bool) : (s.setFlag f).draws = s.draws := rfl
@[simp] theorem State.setFlag_pressed (s : State) (f : Bool) (q : Reg) : (s.setFlag f).pressed q = s.pressed q := rfl
@[simp] theorem State.setFlag_pressedKeys (s : State) (f : Bool) : (s.setFlag f).pressedKeys = s.pressedKeys := rfl
@[simp] theorem State.setFlag_aIns (s : State) (f : Bool) : (s.setFlag f).aIns = s.aIns := rfl
@[simp] theorem State.setFlag_ea (s : State) (f : Bool) (n : Nat) : (s.setFlag f).ea n = s.ea n := rfl

/-! ### Reading a register after a write -/

/-- Writing a register changes that register and no other (10_state.md R32). -/
theorem State.reg_setReg (s : State) (r q : Reg) (b : Byte) :
    (s.setReg r b).reg q = if q = r then b else s.reg q := by
  simp only [State.reg, State.setReg_v, Vector.getElem_set, Fin.ext_iff, eq_comm]

@[simp] theorem State.reg_setReg_same (s : State) (r : Reg) (b : Byte) : (s.setReg r b).reg r = b := by
  rw [State.reg_setReg, if_pos rfl]

theorem State.reg_setReg_ne (s : State) {r q : Reg} (b : Byte) (h : q ≠ r) : (s.setReg r b).reg q = s.reg q := by
  rw [State.reg_setReg, if_neg h]

/-- The flag is in VF, every other register as before (42_alu.md R212). -/
theorem State.reg_setFlag (s : State) (q : Reg) (f : Bool) :
    (s.setFlag f).reg q = if q = vf then flagByte f else s.reg q := s.reg_setReg vf q (flagByte f)

@[simp] theorem State.reg_setFlag_vf (s : State) (f : Bool) : (s.setFlag f).reg vf = flagByte f := s.reg_setReg_same vf _

/-- Setting a key changes that key and no other (45_timers_keys.md R295). -/
theorem State.pressed_setKeyAt (s : State) (k q : Reg) (b : Bool) :
    (s.setKeyAt k b).pressed q = if q = k then b else s.pressed q := by
  simp only [State.pressed, State.setKeyAt_key, Vector.getElem_set, Fin.ext_iff, eq_comm]

/-- FX65's registers: V0..VX from memory, those above VX as before (43_index_memory.md R246). -/
theorem State.reg_loadRegs (s : State) (x q : Reg) (a : Nat) :
    (s.loadRegs x a).reg q = if q.val ≤ x.val then s.mem.read (a + q.val) else s.reg q := by
  simp [State.reg]

/-! ### Skips and the fetch's advance -/

@[simp] theorem State.skipIf_pc (s : State) (c : Bool) : (s.skipIf c).pc = if c then s.pc + 2 else s.pc := by
  cases c <;> rfl

/-- A skip writes pc alone (41_control.md R183). -/
theorem State.skipIf_eq (s : State) (c : Bool) : s.skipIf c = s.setPc (if c then s.pc + 2 else s.pc) := by
  cases c <;> rfl

/-- A key wait that met one key or none reads no free draw. -/
theorem State.afterKeyDraw_eq (s : State) :
    s.afterKeyDraw = { s with draws := if 2 ≤ s.pressedKeys.length then s.draws + 1 else s.draws } := by
  unfold State.afterKeyDraw
  split <;> simp [State.nextDraw]

end Sys2Proof.Machine
end

