-- ==== Sys2Proof/Laws/Ops.lean ====
section
/-! SUPPORT. What each shared operation can do, said once: the Fetch Unit, the tick, the Stack Unit, the register-file controller, the key draws. -/

namespace Sys2Proof.Machine

/-! ## Fetch Unit and tick -/

/-- A fetch succeeds just below 4095, with the big-endian word at pc and pc + 2; otherwise it reports the first of pc and pc + 1 outside memory (40_interface_fetch_decode.md R151). -/
theorem fetch_eq (s : State) :
    fetch s =
      if s.pc.toNat < 4095 then
        .ok (joinBytes (s.mem.read s.pc.toNat) (s.mem.read (s.pc.toNat + 1)), s.setPc (s.pc + 2))
      else .error (.outOfBounds (max s.pc.toNat 4096) s.pc) := by
  unfold fetch
  rw [readFaults_eq]
  by_cases h : s.pc.toNat < 4095
  · rw [if_pos (by omega), if_pos h]
  · rw [if_neg (by omega), if_neg h]

/-- What a fetch that succeeds can be. -/
theorem fetch_ok {s s1 : State} {w : Word} (h : fetch s = .ok (w, s1)) :
    s.pc.toNat < 4095 ∧ w = joinBytes (s.mem.read s.pc.toNat) (s.mem.read (s.pc.toNat + 1)) ∧ s1 = s.setPc (s.pc + 2) := by
  rw [fetch_eq] at h
  split_ifs at h with hp
  simp only [Except.ok.injEq, Prod.mk.injEq] at h
  exact ⟨hp, h.1.symm, h.2.symm⟩

/-- What a tick that answers a next state did: it fetched below 4095, decoded, and the rule answered that state. -/
theorem runTick_next {run : Instr → State → Host.Outcome State Fault Refusal} {s t : State}
    (h : runTick run s = .next t) :
    ∃ i, s.pc.toNat < 4095 ∧
      decode (joinBytes (s.mem.read s.pc.toNat) (s.mem.read (s.pc.toNat + 1))) = .ok i ∧
      run i ((s.setPc (s.pc + 2)).setAwait false) = .next t := by
  unfold runTick at h
  cases hf : fetch s with
  | error e => simp [hf] at h
  | ok r =>
    obtain ⟨w, s1⟩ := r
    obtain ⟨hp, rfl, rfl⟩ := fetch_ok hf
    simp only [hf] at h
    cases hd : decode (joinBytes (s.mem.read s.pc.toNat) (s.mem.read (s.pc.toNat + 1))) with
    | error e => simp [hd] at h
    | ok i => exact ⟨i, hp, rfl, by simpa [hd] using h⟩

/-- A tick whose word decodes runs the instruction's rule, with pc advanced and AWAIT cleared. -/
theorem runTick_decoded {run : Instr → State → Host.Outcome State Fault Refusal} {s : State} {i : Instr}
    (hp : s.pc.toNat < 4095)
    (hd : decode (joinBytes (s.mem.read s.pc.toNat) (s.mem.read (s.pc.toNat + 1))) = .ok i) :
    runTick run s = run i ((s.setPc (s.pc + 2)).setAwait false) := by
  unfold runTick
  rw [fetch_eq, if_pos hp]
  simp only [hd]

/-! ## Stack Unit -/

/-- What a push can do (41_control.md R181). -/
theorem push_cases (s : State) (w : Word) :
    (s.sp.val = 16 ∧ s.push w = .error (.stackOverflow s.aIns)) ∨
    (∃ _ : s.sp.val < 16,
      s.push w = .ok { s with stack := s.stack.set s.sp.val w, sp := ⟨s.sp.val + 1, by omega⟩ }) := by
  have hsp := s.sp.isLt
  unfold State.push
  by_cases h : s.sp.val < 16
  · exact .inr ⟨h, by simp [h]⟩
  · exact .inl ⟨by omega, by simp [h]⟩

/-- What a pop can do (41_control.md R182). -/
theorem pop_cases (s : State) :
    (s.sp.val = 0 ∧ s.pop = .error (.stackUnderflow s.aIns)) ∨
    (∃ _ : s.sp.val ≠ 0,
      s.pop = .ok (s.stack[s.sp.val - 1]'(by have := s.sp.isLt; omega), { s with sp := ⟨s.sp.val - 1, by have := s.sp.isLt; omega⟩ })) := by
  unfold State.pop
  by_cases h : s.sp.val = 0
  · exact .inl ⟨h, by simp [h]⟩
  · exact .inr ⟨h, by simp [h]⟩

/-! ## Register-file controller -/

/-- The controller writes registers alone (42_alu.md R211). -/
theorem aluWrite_eq (s : State) (op : AluOp) (x : Reg) (b : Byte) :
    s.aluWrite op x b = { s with v := (s.aluWrite op x b).v } := by
  unfold State.aluWrite
  rcases alu op (s.reg x) b with ⟨r, _ | f⟩ <;> rfl

/-- VF ends as the flag where there is one; otherwise VX holds the result; every other register is as before (42_alu.md R211, R212). -/
theorem reg_aluWrite (s : State) (op : AluOp) (x q : Reg) (b : Byte) :
    (s.aluWrite op x b).reg q =
      match (alu op (s.reg x) b).2 with
      | none => if q = x then (alu op (s.reg x) b).1 else s.reg q
      | some f => if q = vf then flagByte f else if q = x then (alu op (s.reg x) b).1 else s.reg q := by
  unfold State.aluWrite
  rcases alu op (s.reg x) b with ⟨r, _ | f⟩
  · exact s.reg_setReg x q r
  · simp only [State.reg_setFlag, State.reg_setReg]

/-! ## Keys -/

theorem mem_pressedKeys {s : State} {k : Reg} : k ∈ s.pressedKeys ↔ s.pressed k = true := by
  simp [State.pressedKeys]

/-- No key is pressed. -/
theorem pressedKeys_eq_nil {s : State} : s.pressedKeys = [] ↔ ∀ k, s.pressed k = false := by
  rw [List.eq_nil_iff_forall_not_mem]
  simp [mem_pressedKeys]

/-- With fewer than two keys pressed, none or one is listed (40_interface_fetch_decode.md R142). -/
theorem pressedKeys_of_unique {s : State} (h : ∀ j k, s.pressed j = true → s.pressed k = true → j = k) :
    s.pressedKeys = [] ∨ ∃ k, s.pressedKeys = [k] := by
  have hnd : s.pressedKeys.Nodup := (List.nodup_finRange 16).filter _
  rcases hp : s.pressedKeys with _ | ⟨a, _ | ⟨b, l⟩⟩
  · exact .inl rfl
  · exact .inr ⟨a, rfl⟩
  · have hab : a = b := h a b (mem_pressedKeys.1 (by simp [hp])) (mem_pressedKeys.1 (by simp [hp]))
    simp [hp, hab] at hnd

/-- The key of the free draw is a pressed key, whatever the draw (40_interface_fetch_decode.md R142). -/
theorem freeKey_pressed {s : State} (h : s.pressedKeys ≠ []) : s.pressed s.freeKey = true := by
  have hmem : ∀ n, s.pressedKeys.getD (n % s.pressedKeys.length) 0 ∈ s.pressedKeys := fun n => by
    have hpos : 0 < s.pressedKeys.length := List.length_pos_iff.2 h
    rw [List.getD_eq_getElem _ _ (Nat.mod_lt _ hpos)]
    exact List.getElem_mem _
  rw [← mem_pressedKeys]
  unfold State.freeKey State.keyOfDraw
  split
  · next k hk => simp [hk]
  · exact hmem _

/-- Every key the draw constraint allows is the key reported (40_interface_fetch_decode.md R142). -/
theorem keyOfDraw_eq {s : State} {kp : Reg} (h : s.pressed kp = true) : s.keyOfDraw kp = kp := by
  unfold State.keyOfDraw
  split
  · next k hk =>
    have := mem_pressedKeys.2 h
    rw [hk, List.mem_singleton] at this
    exact this.symm
  · rfl

theorem keyIndex_eq_some {a : Byte} {k : Reg} : keyIndex a = some k ↔ a.toNat = k.val := by
  unfold keyIndex
  have hk := k.isLt
  split_ifs with h
  · simp [Fin.ext_iff]
  · simp only [false_iff]
    omega

theorem keyIndex_eq_none {a : Byte} : keyIndex a = none ↔ 16 ≤ a.toNat := by
  unfold keyIndex
  split_ifs with h <;> simp
  · omega
  · omega

end Sys2Proof.Machine
end

