-- ==== Sys2Proof/Laws/Exec.lean ====
section
/-! SUPPORT. One spec lemma for each meaning that checks or branches: when it answers a next state and which, and when it reports which error. The other meanings are one update, true by rfl. Then the inversion of `exec` over all instructions. -/

namespace Sys2Proof.Machine

/-- CALL below depth 16 (41_control.md R187). -/
theorem execCall_next {s : State} (addr : Word) (h : s.sp.val < 16) :
    execCall addr s =
      .next { s with pc := addr, stack := s.stack.set s.sp.val s.pc, sp := ⟨s.sp.val + 1, by omega⟩ } := by
  rcases push_cases s s.pc with ⟨h', _⟩ | ⟨h', e⟩
  · omega
  · simp only [execCall, e]
    rfl

/-- CALL at depth 16 (41_control.md R181). -/
theorem execCall_fault {s : State} (addr : Word) (h : s.sp.val = 16) :
    execCall addr s = .fault (.stackOverflow s.aIns) := by
  rcases push_cases s s.pc with ⟨_, e⟩ | ⟨h', _⟩
  · simp only [execCall, e]
  · omega

/-- RET above depth 0 (41_control.md R185). -/
theorem execRet_next {s : State} (h : s.sp.val ≠ 0) :
    execRet s =
      .next { s with
        pc := s.stack[s.sp.val - 1]'(by have := s.sp.isLt; omega)
        sp := ⟨s.sp.val - 1, by have := s.sp.isLt; omega⟩ } := by
  rcases pop_cases s with ⟨h', _⟩ | ⟨h', e⟩
  · exact absurd h' h
  · simp only [execRet, e]
    rfl

/-- RET at depth 0 (41_control.md R182). -/
theorem execRet_fault {s : State} (h : s.sp.val = 0) : execRet s = .fault (.stackUnderflow s.aIns) := by
  rcases pop_cases s with ⟨_, e⟩ | ⟨h', _⟩
  · simp only [execRet, e]
  · exact absurd h h'

/-- LD B (43_index_memory.md R244). -/
theorem execLdB_eq (x : Reg) (s : State) :
    execLdB x s =
      if s.i.toNat < 80 then .fault (.readOnlyWrite s.i.toNat s.aIns)
      else if s.i.toNat + 3 ≤ 4096 then .next (s.storeBytes s.i.toNat (bcdDigits (s.reg x)))
      else .fault (.outOfBounds (max s.i.toNat 4096) s.aIns) := by
  have he : s.ea 0 = s.i.toNat := rfl
  simp only [execLdB, he]
  rw [writeFaults_eq _ _ _ (by omega)]
  by_cases h1 : s.i.toNat < 80
  · rw [if_pos h1, if_pos h1]
  · by_cases h2 : s.i.toNat + 3 ≤ 4096
    · rw [if_neg h1, if_neg h1, if_pos h2, if_pos h2]
    · rw [if_neg h1, if_neg h1, if_neg h2, if_neg h2]

/-- LD [I], Vx (43_index_memory.md R245). -/
theorem execLdStore_eq (x : Reg) (s : State) :
    execLdStore x s =
      if s.i.toNat < 80 then .fault (.readOnlyWrite s.i.toNat s.aIns)
      else if s.i.toNat + (x.val + 1) ≤ 4096 then .next (s.storeBytes s.i.toNat (s.regsUpTo x))
      else .fault (.outOfBounds (max s.i.toNat 4096) s.aIns) := by
  have he : s.ea 0 = s.i.toNat := rfl
  simp only [execLdStore, he]
  rw [writeFaults_eq _ _ _ (by omega)]
  by_cases h1 : s.i.toNat < 80
  · rw [if_pos h1, if_pos h1]
  · by_cases h2 : s.i.toNat + (x.val + 1) ≤ 4096
    · rw [if_neg h1, if_neg h1, if_pos h2, if_pos h2]
    · rw [if_neg h1, if_neg h1, if_neg h2, if_neg h2]

/-- LD Vx, [I] (43_index_memory.md R246). -/
theorem execLdLoad_eq (x : Reg) (s : State) :
    execLdLoad x s =
      if s.i.toNat + (x.val + 1) ≤ 4096 then .next (s.loadRegs x s.i.toNat)
      else .fault (.outOfBounds (max s.i.toNat 4096) s.aIns) := by
  unfold execLdLoad
  rw [readFaults_eq]
  simp only [State.ea, Nat.add_zero, Nat.add_eq_zero_iff, one_ne_zero, and_false, false_or]
  split_ifs <;> rfl

/-- DRW (44_display.md R265). -/
theorem execDrw_eq (x y : Reg) (n : Nat) (s : State) :
    execDrw x y n s =
      if n = 0 ∨ s.i.toNat + n ≤ 4096 then
        .next ((s.setFb (draw s.fb (spritePixels s.mem (s.reg x).toNat (s.reg y).toNat s.i.toNat n)).1).setFlag
          (draw s.fb (spritePixels s.mem (s.reg x).toNat (s.reg y).toNat s.i.toNat n)).2)
      else .fault (.outOfBounds (max s.i.toNat 4096) s.aIns) := by
  unfold execDrw
  rw [readFaults_eq]
  simp only [State.ea, Nat.add_zero]
  split_ifs <;> simp [*]

/-- SKP (45_timers_keys.md R281). -/
theorem execSkp_eq (x : Reg) (s : State) :
    execSkp x s =
      if h : (s.reg x).toNat < 16 then .next (s.skipIf (s.pressed ⟨(s.reg x).toNat, h⟩))
      else .fault (.badKeyIndex (s.reg x) s.aIns) := by
  unfold execSkp keyIndex
  split_ifs <;> rfl

/-- SKNP (45_timers_keys.md R282). -/
theorem execSknp_eq (x : Reg) (s : State) :
    execSknp x s =
      if h : (s.reg x).toNat < 16 then .next (s.skipIf (!s.pressed ⟨(s.reg x).toNat, h⟩))
      else .fault (.badKeyIndex (s.reg x) s.aIns) := by
  unfold execSknp keyIndex
  split_ifs <;> rfl

/-- LD Vx, K with no key pressed (45_timers_keys.md R284). -/
theorem execLdVxK_blocked {s : State} (x : Reg) (h : s.pressedKeys = []) :
    execLdVxK x s = .next { s with pc := s.aIns, await := true } := by
  simp [execLdVxK, State.waitKey, State.afterKeyDraw, h, State.setPc, State.setAwait]

/-- LD Vx, K with a key pressed (45_timers_keys.md R284). -/
theorem execLdVxK_completes {s : State} (x : Reg) (h : s.pressedKeys ≠ []) :
    execLdVxK x s =
      .next { s with
        v := s.v.set x.val (BitVec.ofNat 8 s.freeKey.val)
        await := false
        draws := if 2 ≤ s.pressedKeys.length then s.draws + 1 else s.draws } := by
  have hk : s.afterKeyDraw.pressedKeys = s.pressedKeys := by
    rw [State.afterKeyDraw_eq]
    rfl
  simp only [execLdVxK, State.waitKey, hk, h, if_false]
  rw [State.afterKeyDraw_eq]
  rfl

/-! ## All instructions at once -/

/-- What a meaning can do when it answers a next state: one line for each instruction, its guards included. -/
def Effect (i : Instr) (s t : State) : Prop :=
  match i with
  | .nop => t = s
  | .cls => t = s.setFb Framebuffer.blank
  | .ret => s.sp.val ≠ 0 ∧ t = { s with
        pc := s.stack[s.sp.val - 1]'(by have := s.sp.isLt; omega)
        sp := ⟨s.sp.val - 1, by have := s.sp.isLt; omega⟩ }
  | .jp a => t = s.setPc a
  | .call a => ∃ h : s.sp.val < 16, t = { s with pc := a, stack := s.stack.set s.sp.val s.pc, sp := ⟨s.sp.val + 1, by omega⟩ }
  | .seByte x nn => t = s.skipIf (s.reg x == nn)
  | .sneByte x nn => t = s.skipIf (s.reg x != nn)
  | .seReg x y => t = s.skipIf (s.reg x == s.reg y)
  | .ldByte x nn => t = s.setReg x nn
  | .addByte x nn => t = s.aluWrite .addi x nn
  | .ldReg x y => t = s.aluWrite .mov x (s.reg y)
  | .or x y => t = s.aluWrite .or x (s.reg y)
  | .and x y => t = s.aluWrite .and x (s.reg y)
  | .xor x y => t = s.aluWrite .xor x (s.reg y)
  | .addReg x y => t = s.aluWrite .add x (s.reg y)
  | .sub x y => t = s.aluWrite .sub x (s.reg y)
  | .shr x y => t = s.aluWrite .shr x (s.reg y)
  | .subn x y => t = s.aluWrite .subn x (s.reg y)
  | .shl x y => t = s.aluWrite .shl x (s.reg y)
  | .sneReg x y => t = s.skipIf (s.reg x != s.reg y)
  | .ldI a => t = s.setI a
  | .jpV0 a => t = s.setPc (s.offsetTarget a)
  | .rnd x nn => t = (s.random (Config.rng s.draws) x nn).nextDraw
  | .drw x y n => (n = 0 ∨ s.i.toNat + n ≤ 4096) ∧ t = ((s.setFb (draw s.fb (spritePixels s.mem (s.reg x).toNat (s.reg y).toNat s.i.toNat n)).1).setFlag
          (draw s.fb (spritePixels s.mem (s.reg x).toNat (s.reg y).toNat s.i.toNat n)).2)
  | .skp x => ∃ k, keyIndex (s.reg x) = some k ∧ t = s.skipIf (s.pressed k)
  | .sknp x => ∃ k, keyIndex (s.reg x) = some k ∧ t = s.skipIf (!s.pressed k)
  | .ldVxDt x => t = s.setReg x s.dt
  | .ldVxK x => (s.pressedKeys = [] ∧ t = { s with pc := s.aIns, await := true }) ∨ (s.pressedKeys ≠ [] ∧ t = { s with
        v := s.v.set x.val (BitVec.ofNat 8 s.freeKey.val)
        await := false
        draws := if 2 ≤ s.pressedKeys.length then s.draws + 1 else s.draws })
  | .ldDt x => t = s.setDt (s.reg x)
  | .ldSt x => t = s.setSt (s.reg x)
  | .addI x => t = s.setI (s.i + zext16 (s.reg x))
  | .ldF x => t = s.setI (glyphAddr (s.reg x))
  | .ldB x => 80 ≤ s.i.toNat ∧ s.i.toNat + 3 ≤ 4096 ∧ t = s.storeBytes s.i.toNat (bcdDigits (s.reg x))
  | .ldStore x => 80 ≤ s.i.toNat ∧ s.i.toNat + (x.val + 1) ≤ 4096 ∧ t = s.storeBytes s.i.toNat (s.regsUpTo x)
  | .ldLoad x => s.i.toNat + (x.val + 1) ≤ 4096 ∧ t = s.loadRegs x s.i.toNat

/-- The inversion of `exec`, which every invariant and frame over all instructions can start from. -/
theorem exec_next {i : Instr} {s t : State} (h : exec i s = .next t) : Effect i s t := by
  cases i with
  | ret =>
    change execRet s = _ at h
    by_cases hs : s.sp.val = 0
    · rw [execRet_fault hs] at h; simp at h
    · rw [execRet_next hs] at h; exact ⟨hs, by simpa using h.symm⟩
  | call a =>
    change execCall a s = _ at h
    by_cases hs : s.sp.val < 16
    · rw [execCall_next a hs] at h; exact ⟨hs, by simpa using h.symm⟩
    · rw [execCall_fault a (by omega)] at h; simp at h
  | drw x y n =>
    change execDrw x y n s = _ at h
    rw [execDrw_eq] at h
    split_ifs at h with hc
    exact ⟨hc, by simpa using h.symm⟩
  | skp x =>
    change execSkp x s = _ at h
    unfold execSkp at h
    split at h
    · simp at h
    · next k hk => exact ⟨k, hk, by simpa using h.symm⟩
  | sknp x =>
    change execSknp x s = _ at h
    unfold execSknp at h
    split at h
    · simp at h
    · next k hk => exact ⟨k, hk, by simpa using h.symm⟩
  | ldVxK x =>
    change execLdVxK x s = _ at h
    by_cases hk : s.pressedKeys = []
    · rw [execLdVxK_blocked x hk] at h
      exact .inl ⟨hk, by simpa using h.symm⟩
    · rw [execLdVxK_completes x hk] at h
      exact .inr ⟨hk, by simpa using h.symm⟩
  | ldB x =>
    change execLdB x s = _ at h
    rw [execLdB_eq] at h
    split_ifs at h with h1 h2
    exact ⟨by omega, h2, by simpa using h.symm⟩
  | ldStore x =>
    change execLdStore x s = _ at h
    rw [execLdStore_eq] at h
    split_ifs at h with h1 h2
    exact ⟨by omega, h2, by simpa using h.symm⟩
  | ldLoad x =>
    change execLdLoad x s = _ at h
    rw [execLdLoad_eq] at h
    split_ifs at h with h1
    exact ⟨h1, by simpa using h.symm⟩
  | _ => simp only [exec, execNop, execCls, execJp, execSeByte, execSneByte, execSeReg, execLdByte, execAddByte, execLdReg, execOr, execAnd, execXor, execAddReg, execSub, execShr, execSubn, execShl, execSneReg, execLdI, execJpV0, execRnd, execLdVxDt, execLdDt, execLdSt, execAddI, execLdF, Host.Outcome.next.injEq] at h; exact h.symm

end Sys2Proof.Machine
end

