-- ==== Sys2Proof/Laws/HostOps.lean ====
section
/-! SUPPORT. What a tick can do, one lemma for each of its three ends, and what the host's other operations leave. -/

namespace Sys2Proof.Machine

open Sys2Proof.Config

/-- The end of a tick: the fetch failed, the word is unknown, or the instruction's rule ran (40_interface_fetch_decode.md R150, R151; 30_encoding.md R112). -/
theorem runTick_cases (run : Instr → State → Host.Outcome State Fault Refusal) (s : State) :
    (∃ e, fetch s = .error e ∧ 4095 ≤ s.pc.toNat ∧ e = .outOfBounds (max s.pc.toNat 4096) s.pc ∧
      runTick run s = .fault e) ∨
    (s.pc.toNat < 4095 ∧ (∃ x, fetch s = .ok x) ∧
      ((∃ r, decode (joinBytes (s.mem.read s.pc.toNat) (s.mem.read (s.pc.toNat + 1))) = .error r ∧
        runTick run s = .fault (.unknownOpcode (joinBytes (s.mem.read s.pc.toNat) (s.mem.read (s.pc.toNat + 1))) s.pc)) ∨
       ∃ i, decode (joinBytes (s.mem.read s.pc.toNat) (s.mem.read (s.pc.toNat + 1))) = .ok i ∧
        runTick run s = run i ((s.setPc (s.pc + 2)).setAwait false))) := by
  have hf := fetch_eq s
  by_cases hp : s.pc.toNat < 4095
  · rw [if_pos hp] at hf
    refine .inr ⟨hp, ⟨_, hf⟩, ?_⟩
    rcases hd : decode (joinBytes (s.mem.read s.pc.toNat) (s.mem.read (s.pc.toNat + 1))) with r | i
    · exact .inl ⟨r, rfl, by simp only [runTick, hf, hd]⟩
    · exact .inr ⟨i, rfl, by simp only [runTick, hf, hd]⟩
  · rw [if_neg hp] at hf
    exact .inl ⟨_, hf, by omega, rfl, by simp only [runTick, hf]⟩

/-- The instruction's address, read inside its rule, is the pc the tick fetched from (00_scope.md R25). -/
theorem aIns_afterFetch (s : State) : ((s.setPc (s.pc + 2)).setAwait false).aIns = s.pc := by
  simp [State.aIns]

/-- With the draws given, only RND and LD Vx, K differ from `exec`. -/
theorem execWith_eq {d : Draws} {i : Instr} {s : State} (h1 : ∀ x nn, i ≠ .rnd x nn) (h2 : ∀ x, i ≠ .ldVxK x) :
    execWith d i s = exec i s := by
  cases i <;> first | rfl | simp at h1 h2

/-- A timer's step is truncated subtraction (45_timers_keys.md R290). -/
theorem timerDown_toNat (b : Byte) : (timerDown b).toNat = b.toNat - 1 := by
  revert b
  decide

/-- The canonical memory for a FONT: FONT below 80 and 0 from 80 on (70_reset_and_hazards.md R340). -/
theorem resetWith_read (font : Font) (a : Nat) :
    (State.resetWith font).mem.read a = if h : a < 80 then font[a] else 0 := by
  have hr := Memory.read_store (bs := font.toList) Memory.wf_nil (a := 0) (by simp) a
  simp only [State.resetWith, hr]
  split_ifs with h1 h2 h2
  · simp
  · simp only [Vector.length_toList] at h1
    omega
  · simp only [Vector.length_toList] at h1
    omega
  · simp only [Memory.read, unlistedByte, Config.fontSize, if_neg h2]

/-- After an error: all but AWAIT and pc is as before (60_exceptions.md R316). -/
theorem afterError_eq (p : ErrCommitPc) (s : State) :
    afterError p s =
      { s with await := false, pc := if s.pc.toNat < 4095 ∧ p = .advance then s.pc + 2 else s.pc } := by
  unfold afterError
  rw [fetch_eq]
  by_cases hp : s.pc.toNat < 4095
  · cases p <;> simp [hp, State.setPc, State.setAwait]
  · simp [hp, State.setAwait]

end Sys2Proof.Machine
end

