-- ==== Sys2Proof/Laws/PerInstr.lean ====
section
/-! SUPPORT. Statements about every instruction as syntax, one lemma for each constructor. -/

namespace Sys2Proof.Laws

/-! ## RoundTrip: decoding the word of a well-formed instruction gives the instruction back (30_encoding.md R107, R110, R118) -/

/-- Decoding the encoded instruction gives it back, whatever its operands. -/
def RoundTrip.Statement (i : Instr) : Prop := i.wellFormed = true → decode (encode i) = .ok i

/-! ### One lemma for each form -/

theorem decode_xnn (k : Fin 16) (x : Reg) (nn : Byte) {r : Except Reject Instr}
    (h : ∀ w : Word, fieldOp w = k.val → fieldX w = x → fieldNN w = nn → decode w = r) :
    decode (formXnn (BitVec.ofNat 16 (k.val * 4096)) x nn) = r :=
  h _ (fields_formXnn k x nn).1 (fields_formXnn k x nn).2.1 (fields_formXnn k x nn).2.2

theorem decode_xyn (k : Fin 16) (x y : Reg) (n : Nat) (hn : n < 16) {r : Except Reject Instr}
    (h : ∀ w : Word, fieldOp w = k.val → fieldX w = x → fieldY w = y → fieldN w = n → decode w = r) :
    decode (formXyn (BitVec.ofNat 16 (k.val * 4096)) x y n) = r :=
  h _ (fields_formXyn k x y n hn).1 (fields_formXyn k x y n hn).2.1 (fields_formXyn k x y n hn).2.2.1
    (fields_formXyn k x y n hn).2.2.2

theorem decode_nnn (k : Fin 16) (addr : Word) (ha : addrOk addr = true) {r : Except Reject Instr}
    (h : ∀ w : Word, fieldOp w = k.val → fieldNNN w = addr → decode w = r) :
    decode (formNnn (BitVec.ofNat 16 (k.val * 4096)) addr) = r :=
  have ha' : addr.toNat < 4096 := by simpa [addrOk] using ha
  h _ (fields_formNnn k addr ha').1 (fields_formNnn k addr ha').2

/-! ### One lemma for each constructor -/

theorem RoundTrip.nop : RoundTrip.Statement .nop := fun _ => by decide

theorem RoundTrip.cls : RoundTrip.Statement .cls := fun _ => by decide

theorem RoundTrip.ret : RoundTrip.Statement .ret := fun _ => by decide

theorem RoundTrip.jp (addr : Word) : RoundTrip.Statement (.jp addr) := fun hw =>
  decode_nnn 1 addr hw fun w h1 h2 => by simp [decode, h1, h2]

theorem RoundTrip.call (addr : Word) : RoundTrip.Statement (.call addr) := fun hw =>
  decode_nnn 2 addr hw fun w h1 h2 => by simp [decode, h1, h2]

theorem RoundTrip.seByte (x : Reg) (nn : Byte) : RoundTrip.Statement (.seByte x nn) := fun _ =>
  decode_xnn 3 x nn fun w h1 h2 h3 => by simp [decode, h1, h2, h3]

theorem RoundTrip.sneByte (x : Reg) (nn : Byte) : RoundTrip.Statement (.sneByte x nn) := fun _ =>
  decode_xnn 4 x nn fun w h1 h2 h3 => by simp [decode, h1, h2, h3]

theorem RoundTrip.seReg (x y : Reg) : RoundTrip.Statement (.seReg x y) := fun _ =>
  decode_xyn 5 x y 0 (by omega) fun w h1 h2 h3 h4 => by simp [decode, h1, h2, h3, h4]

theorem RoundTrip.ldByte (x : Reg) (nn : Byte) : RoundTrip.Statement (.ldByte x nn) := fun _ =>
  decode_xnn 6 x nn fun w h1 h2 h3 => by simp [decode, h1, h2, h3]

theorem RoundTrip.addByte (x : Reg) (nn : Byte) : RoundTrip.Statement (.addByte x nn) := fun _ =>
  decode_xnn 7 x nn fun w h1 h2 h3 => by simp [decode, h1, h2, h3]

theorem RoundTrip.ldReg (x y : Reg) : RoundTrip.Statement (.ldReg x y) := fun _ =>
  decode_xyn 8 x y 0 (by omega) fun w h1 h2 h3 h4 => by simp [decode, h1, h2, h3, h4]

theorem RoundTrip.or (x y : Reg) : RoundTrip.Statement (.or x y) := fun _ =>
  decode_xyn 8 x y 1 (by omega) fun w h1 h2 h3 h4 => by simp [decode, h1, h2, h3, h4]

theorem RoundTrip.and (x y : Reg) : RoundTrip.Statement (.and x y) := fun _ =>
  decode_xyn 8 x y 2 (by omega) fun w h1 h2 h3 h4 => by simp [decode, h1, h2, h3, h4]

theorem RoundTrip.xor (x y : Reg) : RoundTrip.Statement (.xor x y) := fun _ =>
  decode_xyn 8 x y 3 (by omega) fun w h1 h2 h3 h4 => by simp [decode, h1, h2, h3, h4]

theorem RoundTrip.addReg (x y : Reg) : RoundTrip.Statement (.addReg x y) := fun _ =>
  decode_xyn 8 x y 4 (by omega) fun w h1 h2 h3 h4 => by simp [decode, h1, h2, h3, h4]

theorem RoundTrip.sub (x y : Reg) : RoundTrip.Statement (.sub x y) := fun _ =>
  decode_xyn 8 x y 5 (by omega) fun w h1 h2 h3 h4 => by simp [decode, h1, h2, h3, h4]

theorem RoundTrip.shr (x y : Reg) : RoundTrip.Statement (.shr x y) := fun _ =>
  decode_xyn 8 x y 6 (by omega) fun w h1 h2 h3 h4 => by simp [decode, h1, h2, h3, h4]

theorem RoundTrip.subn (x y : Reg) : RoundTrip.Statement (.subn x y) := fun _ =>
  decode_xyn 8 x y 7 (by omega) fun w h1 h2 h3 h4 => by simp [decode, h1, h2, h3, h4]

theorem RoundTrip.shl (x y : Reg) : RoundTrip.Statement (.shl x y) := fun _ =>
  decode_xyn 8 x y 14 (by omega) fun w h1 h2 h3 h4 => by simp [decode, h1, h2, h3, h4]

theorem RoundTrip.sneReg (x y : Reg) : RoundTrip.Statement (.sneReg x y) := fun _ =>
  decode_xyn 9 x y 0 (by omega) fun w h1 h2 h3 h4 => by simp [decode, h1, h2, h3, h4]

theorem RoundTrip.ldI (addr : Word) : RoundTrip.Statement (.ldI addr) := fun hw =>
  decode_nnn 10 addr hw fun w h1 h2 => by simp [decode, h1, h2]

theorem RoundTrip.jpV0 (addr : Word) : RoundTrip.Statement (.jpV0 addr) := fun hw =>
  decode_nnn 11 addr hw fun w h1 h2 => by simp [decode, h1, h2]

theorem RoundTrip.rnd (x : Reg) (nn : Byte) : RoundTrip.Statement (.rnd x nn) := fun _ =>
  decode_xnn 12 x nn fun w h1 h2 h3 => by simp [decode, h1, h2, h3]

theorem RoundTrip.drw (x y : Reg) (n : Nat) : RoundTrip.Statement (.drw x y n) := fun hw =>
  decode_xyn 0xD x y n (by simpa [Instr.wellFormed, rowsOk] using hw) fun w h1 h2 h3 h4 => by simp [decode, h1, h2, h3, h4]

theorem RoundTrip.skp (x : Reg) : RoundTrip.Statement (.skp x) := fun _ =>
  decode_xnn 14 x 0x9e fun w h1 h2 h3 => by simp [decode, h1, h2, h3]

theorem RoundTrip.sknp (x : Reg) : RoundTrip.Statement (.sknp x) := fun _ =>
  decode_xnn 14 x 0xa1 fun w h1 h2 h3 => by simp [decode, h1, h2, h3]

theorem RoundTrip.ldVxDt (x : Reg) : RoundTrip.Statement (.ldVxDt x) := fun _ =>
  decode_xnn 15 x 0x07 fun w h1 h2 h3 => by simp [decode, h1, h2, h3]

theorem RoundTrip.ldVxK (x : Reg) : RoundTrip.Statement (.ldVxK x) := fun _ =>
  decode_xnn 15 x 0x0a fun w h1 h2 h3 => by simp [decode, h1, h2, h3]

theorem RoundTrip.ldDt (x : Reg) : RoundTrip.Statement (.ldDt x) := fun _ =>
  decode_xnn 15 x 0x15 fun w h1 h2 h3 => by simp [decode, h1, h2, h3]

theorem RoundTrip.ldSt (x : Reg) : RoundTrip.Statement (.ldSt x) := fun _ =>
  decode_xnn 15 x 0x18 fun w h1 h2 h3 => by simp [decode, h1, h2, h3]

theorem RoundTrip.addI (x : Reg) : RoundTrip.Statement (.addI x) := fun _ =>
  decode_xnn 15 x 0x1e fun w h1 h2 h3 => by simp [decode, h1, h2, h3]

theorem RoundTrip.ldF (x : Reg) : RoundTrip.Statement (.ldF x) := fun _ =>
  decode_xnn 15 x 0x29 fun w h1 h2 h3 => by simp [decode, h1, h2, h3]

theorem RoundTrip.ldB (x : Reg) : RoundTrip.Statement (.ldB x) := fun _ =>
  decode_xnn 15 x 0x33 fun w h1 h2 h3 => by simp [decode, h1, h2, h3]

theorem RoundTrip.ldStore (x : Reg) : RoundTrip.Statement (.ldStore x) := fun _ =>
  decode_xnn 15 x 0x55 fun w h1 h2 h3 => by simp [decode, h1, h2, h3]

theorem RoundTrip.ldLoad (x : Reg) : RoundTrip.Statement (.ldLoad x) := fun _ =>
  decode_xnn 15 x 0x65 fun w h1 h2 h3 => by simp [decode, h1, h2, h3]

end Sys2Proof.Laws
end

