-- ==== Sys2Proof/Tests/Slice0.lean ====
section
/-! SUPPORT. The model's own tests: well-formedness, one decoding for each row of 30_encoding.md R110, one or two steps for each instruction with the results of 95_test_vectors.md (the vector is named in each docstring), the host's operations, and for each obligation with hypotheses a state and operands that meet them. -/

set_option maxRecDepth 4000

namespace Sys2Proof.Tests

open Sys2Proof Sys2Proof.Machine Sys2Proof.Config

/-! ## Helpers -/

/-- The next state, if there is one. -/
def nextOf : Host.Outcome State Fault Refusal → Option State
  | .next t => some t
  | _ => none

/-- The fault, if there is one. -/
def faultOf : Host.Outcome State Fault Refusal → Option Fault
  | .fault e => some e
  | _ => none

/-- The reset state with the listed registers set. -/
def withRegs (l : List (Reg × Byte)) : State := l.foldl (fun s p => s.setReg p.1 p.2) State.reset

/-- The reset state with the listed bytes stored. -/
def withBytes (l : List (Nat × Byte)) (s : State) : State := l.foldl (fun s p => s.storeBytes p.1 [p.2]) s

/-- The step that runs the word `w` placed at pc. -/
def run (w : Nat) (s : State) : Option State := nextOf (step (s.withFetchWord 16 w))

/-- That step's fault. -/
def runFault (w : Nat) (s : State) : Option Fault := faultOf (step (s.withFetchWord 16 w))

/-- The word is run from `s` and leaves `f` of the state it ran from: so nothing else changed. -/
abbrev Gives (w : Nat) (s : State) (f : State → State) : Prop := run w s = some (f (s.withFetchWord 16 w))

/-! ## WellFormed: ill-formed terms are refused (30_encoding.md R117) -/

theorem test_wf_jp_refused : (Instr.jp 0x1000).wellFormed = false := by decide
theorem test_wf_call_refused : (Instr.call 0x1000).wellFormed = false := by decide
theorem test_wf_ldI_refused : (Instr.ldI 0xFFFF).wellFormed = false := by decide
theorem test_wf_jpV0_refused : (Instr.jpV0 0x1000).wellFormed = false := by decide
theorem test_wf_drw_refused : (Instr.drw 0 0 16).wellFormed = false := by decide
theorem test_wf_jp_accepted : (Instr.jp 0xFFF).wellFormed = true := by decide
theorem test_wf_drw_accepted : (Instr.drw 0 0 15).wellFormed = true := by decide

/-! ## Decoding: a word of each row, written out from the patterns of 30_encoding.md R110 -/

theorem test_decode_nop : decode 0x0000 = .ok .nop := by decide
theorem test_decode_cls : decode 0x00E0 = .ok .cls := by decide
theorem test_decode_ret : decode 0x00EE = .ok .ret := by decide
theorem test_decode_jp : decode 0x1ABC = .ok (.jp 0xABC) := by decide
theorem test_decode_call : decode 0x2400 = .ok (.call 0x400) := by decide
theorem test_decode_seByte : decode 0x3A42 = .ok (.seByte 0xA 0x42) := by decide
theorem test_decode_sneByte : decode 0x4A42 = .ok (.sneByte 0xA 0x42) := by decide
theorem test_decode_seReg : decode 0x5120 = .ok (.seReg 1 2) := by decide
theorem test_decode_ldByte : decode 0x6A5C = .ok (.ldByte 0xA 0x5C) := by decide
theorem test_decode_addByte : decode 0x7AFF = .ok (.addByte 0xA 0xFF) := by decide
theorem test_decode_ldReg : decode 0x8AB0 = .ok (.ldReg 0xA 0xB) := by decide
theorem test_decode_or : decode 0x8AB1 = .ok (.or 0xA 0xB) := by decide
theorem test_decode_and : decode 0x8AB2 = .ok (.and 0xA 0xB) := by decide
theorem test_decode_xor : decode 0x8AB3 = .ok (.xor 0xA 0xB) := by decide
theorem test_decode_addReg : decode 0x8AB4 = .ok (.addReg 0xA 0xB) := by decide
theorem test_decode_sub : decode 0x8AB5 = .ok (.sub 0xA 0xB) := by decide
theorem test_decode_shr : decode 0x8AB6 = .ok (.shr 0xA 0xB) := by decide
theorem test_decode_subn : decode 0x8AB7 = .ok (.subn 0xA 0xB) := by decide
theorem test_decode_shl : decode 0x8ABE = .ok (.shl 0xA 0xB) := by decide
theorem test_decode_sneReg : decode 0x9120 = .ok (.sneReg 1 2) := by decide
theorem test_decode_ldI : decode 0xA2F0 = .ok (.ldI 0x2F0) := by decide
theorem test_decode_jpV0 : decode 0xBFFF = .ok (.jpV0 0xFFF) := by decide
theorem test_decode_rnd : decode 0xCA0F = .ok (.rnd 0xA 0x0F) := by decide
theorem test_decode_drw : decode 0xD125 = .ok (.drw 1 2 5) := by decide
theorem test_decode_skp : decode 0xE59E = .ok (.skp 5) := by decide
theorem test_decode_sknp : decode 0xE5A1 = .ok (.sknp 5) := by decide
theorem test_decode_ldVxDt : decode 0xF307 = .ok (.ldVxDt 3) := by decide
theorem test_decode_ldVxK : decode 0xF40A = .ok (.ldVxK 4) := by decide
theorem test_decode_ldDt : decode 0xF715 = .ok (.ldDt 7) := by decide
theorem test_decode_ldSt : decode 0xF818 = .ok (.ldSt 8) := by decide
theorem test_decode_addI : decode 0xF11E = .ok (.addI 1) := by decide
theorem test_decode_ldF : decode 0xFE29 = .ok (.ldF 0xE) := by decide
theorem test_decode_ldB : decode 0xFD33 = .ok (.ldB 0xD) := by decide
theorem test_decode_ldStore : decode 0xF255 = .ok (.ldStore 2) := by decide
theorem test_decode_ldLoad : decode 0xFF65 = .ok (.ldLoad 0xF) := by decide

/-- Words of each class of 30_encoding.md R111 are unknown (T6, T8 to T15). -/
theorem test_decode_unknown :
    ([0x0123, 0x00FF, 0x5121, 0x8008, 0x800F, 0x9011, 0xE000, 0xE19F, 0xF000].all
      fun w => (decodeTableWord 16 w).isNone) = true := by decide

/-- The words of 30_encoding.md R110 the encoder gives for a form with every field used. -/
theorem test_encode_drw : encode (.drw 1 2 5) = 0xD125 := by decide

/-- `SHR Vx` without Vy encodes Y = 0 (30_encoding.md R117). -/
theorem test_assemble_shr : assembleWord .shr [.v 0xA] = some 0x8A06 := by decide

/-- An operand outside its range does not assemble (30_encoding.md R117). -/
theorem test_assemble_out_of_range :
    assemble .ld [.v 0, .num 0x100] = none ∧ assemble .ld [.v 16, .num 0] = none ∧ assemble .jp [.num 0x1000] = none ∧
    assemble .drw [.v 0, .v 0, .num 16] = none ∧ assemble .jp [.v 1, .num 0] = none := by decide

/-! ## The tick -/

/-- T4. -/
theorem test_fetch_low_byte_outside : step { State.reset with pc := 0xFFF } = .fault (.outOfBounds 0x1000 0xFFF) := by rfl

/-- T6: after the error pc is advanced, or restored (T7). -/
theorem test_unknown_commits_pc :
    (afterError .advance State.reset).pc = 0x202 ∧ (afterError .restore State.reset).pc = 0x200 ∧
    runFault 0x0123 State.reset = some (.unknownOpcode 0x0123 0x200) := by decide

/-- T101: an error ends a wait. -/
theorem test_error_clears_await :
    tick .advance ⟨0, 0⟩ ({ State.reset with await := true }.withFetchWord 16 0x00EE) =
      .ok (.error (.stackUnderflow 0x200), State.reset.withFetchWord 16 0x00EE |>.setPc 0x202) := by rfl

/-! ## Control transfer and skips -/

/-- T1. -/
theorem test_nop : Gives 0x0000 State.reset fun s => { s with pc := 0x202 } := by decide

/-- T16. -/
theorem test_ret :
    Gives 0x00EE { State.reset with pc := 0x400, sp := 1, stack := State.reset.stack.set 0 0x202 }
      fun s => { s with pc := 0x202, sp := 0 } := by decide

/-- T17. -/
theorem test_ret_underflow : runFault 0x00EE State.reset = some (.stackUnderflow 0x200) := by decide

/-- T18. -/
theorem test_jp : Gives 0x1ABC State.reset fun s => { s with pc := 0xABC } := by decide

/-- T20. -/
theorem test_call :
    Gives 0x2400 State.reset fun s => { s with pc := 0x400, sp := 1, stack := s.stack.set 0 0x202 } := by decide

/-- T22. -/
theorem test_call_overflow : runFault 0x2400 { State.reset with sp := 16 } = some (.stackOverflow 0x200) := by decide

/-- T24. -/
theorem test_seByte_skips : Gives 0x3A42 (withRegs [(0xA, 0x42)]) fun s => { s with pc := 0x204 } := by decide

/-- T25. -/
theorem test_seByte_falls : Gives 0x3A42 (withRegs [(0xA, 0x43)]) fun s => { s with pc := 0x202 } := by decide

/-- T26. -/
theorem test_sneByte_skips : Gives 0x4A42 (withRegs [(0xA, 0x43)]) fun s => { s with pc := 0x204 } := by decide

/-- T27. -/
theorem test_sneByte_falls : Gives 0x4A42 (withRegs [(0xA, 0x42)]) fun s => { s with pc := 0x202 } := by decide

/-- T28. -/
theorem test_seReg_skips : Gives 0x5120 (withRegs [(1, 7), (2, 7)]) fun s => { s with pc := 0x204 } := by decide

/-- T30. -/
theorem test_sneReg_skips : Gives 0x9120 (withRegs [(1, 7), (2, 8)]) fun s => { s with pc := 0x204 } := by decide

/-- T31. -/
theorem test_sneReg_falls : Gives 0x9120 (withRegs [(1, 7), (2, 7)]) fun s => { s with pc := 0x202 } := by decide

/-- T32. -/
theorem test_jpV0 : Gives 0xB200 (withRegs [(0, 5)]) fun s => { s with pc := 0x205 } := by decide

/-- T33. -/
theorem test_jpV0_largest : Gives 0xBFFF (withRegs [(0, 0xFF)]) fun s => { s with pc := 0x10FE } := by decide

/-! ## ALU -/

/-- The registers VA and VF after the word is run, and that nothing but registers and pc changed. -/
abbrev GivesRegs (w : Nat) (s : State) (va vf : Byte) : Prop :=
  Gives w s fun t => (((t.setReg 0xA va).setReg 0xF vf).setPc 0x202)

/-- T35. -/
theorem test_ldByte : GivesRegs 0x6A5C State.reset 0x5C 0 := by decide

/-- T36. -/
theorem test_addByte : GivesRegs 0x7AFF (withRegs [(0xA, 2), (0xF, 7)]) 1 7 := by decide

/-- T37. -/
theorem test_addByte_vf : GivesRegs 0x7F01 (withRegs [(0xF, 1)]) 0 2 := by decide

/-- T38. -/
theorem test_ldReg : GivesRegs 0x8AB0 (withRegs [(0xB, 0x33)]) 0x33 0 := by decide

/-- T39. -/
theorem test_or : GivesRegs 0x8AB1 (withRegs [(0xA, 0xF0), (0xB, 0x0F), (0xF, 5)]) 0xFF 5 := by decide

/-- T40. -/
theorem test_and : GivesRegs 0x8AB2 (withRegs [(0xA, 0xF0), (0xB, 0x3C), (0xF, 5)]) 0x30 5 := by decide

/-- T41. -/
theorem test_xor : GivesRegs 0x8AB3 (withRegs [(0xA, 0xFF), (0xB, 0x0F), (0xF, 5)]) 0xF0 5 := by decide

/-- T44: 255 is no carry. -/
theorem test_addReg_no_carry : GivesRegs 0x8AB4 (withRegs [(0xA, 0x7F), (0xB, 0x80)]) 0xFF 0 := by decide

/-- T46: the flag has the last word. -/
theorem test_addReg_vf : GivesRegs 0x8FB4 (withRegs [(0xB, 1), (0xF, 0xFF)]) 0 1 := by decide

/-- T49. -/
theorem test_sub_borrow : GivesRegs 0x8AB5 (withRegs [(0xA, 3), (0xB, 5)]) 0xFE 0 := by decide

/-- T50. -/
theorem test_sub_equal : GivesRegs 0x8AB5 (withRegs [(0xA, 5), (0xB, 5)]) 0 1 := by decide

/-- T52. -/
theorem test_shr : GivesRegs 0x8A06 (withRegs [(0xA, 5)]) 2 1 := by decide

/-- T53: VY is not read. -/
theorem test_shr_vy : GivesRegs 0x8A06 (withRegs [(0, 0xFF), (0xA, 4)]) 2 0 := by decide

/-- T55. -/
theorem test_subn : GivesRegs 0x8AB7 (withRegs [(0xA, 3), (0xB, 5)]) 2 1 := by decide

/-- T56. -/
theorem test_subn_borrow : GivesRegs 0x8AB7 (withRegs [(0xA, 5), (0xB, 3)]) 0xFE 0 := by decide

/-- T57. -/
theorem test_shl : GivesRegs 0x8A0E (withRegs [(0xA, 0x81)]) 2 1 := by decide

/-- T58. -/
theorem test_shl_no_bit : GivesRegs 0x8A0E (withRegs [(0xA, 0x7F)]) 0xFE 0 := by decide

/-- T60: with the random byte 0xAB. -/
theorem test_rnd : nextOf (execWith ⟨0xAB, 0⟩ (.rnd 0xA 0x0F) State.reset) = some (withRegs [(0xA, 0x0B)]) := by decide

/-! ## Index register and memory transfers -/

/-- T62. -/
theorem test_ldI : Gives 0xA2F0 State.reset fun s => { s with pc := 0x202, i := 0x2F0 } := by decide

/-- T64. -/
theorem test_addI_wraps : Gives 0xF11E { withRegs [(1, 1)] with i := 0xFFFF } fun s => { s with pc := 0x202, i := 0 } := by
  decide

/-- T65. -/
theorem test_addI_leaves_memory :
    Gives 0xF11E { withRegs [(1, 1)] with i := 0x0FFF } fun s => { s with pc := 0x202, i := 0x1000 } := by decide

/-- T67: the high nibble is ignored. -/
theorem test_ldF : Gives 0xF029 (withRegs [(0, 0x1F)]) fun s => { s with pc := 0x202, i := 0x004B } := by decide

/-- T68. -/
theorem test_ldB :
    Gives 0xF033 { withRegs [(0, 0xFF)] with i := 0x300 }
      fun s => (withBytes [(0x300, 2), (0x301, 5), (0x302, 5)] s).setPc 0x202 := by decide

/-- T70. -/
theorem test_ldB_outside :
    runFault 0xF033 { withRegs [(0, 7)] with i := 0xFFE } = some (.outOfBounds 0x1000 0x200) := by decide

/-- T73. -/
theorem test_ldStore :
    Gives 0xF255 { withRegs [(0, 1), (1, 2), (2, 3)] with i := 0x300 }
      fun s => (withBytes [(0x300, 1), (0x301, 2), (0x302, 3)] s).setPc 0x202 := by decide

/-- T76. -/
theorem test_ldStore_font :
    runFault 0xF355 { withRegs [(0, 9)] with i := 0x4E } = some (.readOnlyWrite 0x4E 0x200) := by decide

/-- T78: the default FONT, VF loaded as data. -/
theorem test_ldLoad_font :
    (run 0xFF65 State.reset).map (fun t => t.v.toList) =
      some [0xF0, 0x90, 0x90, 0x90, 0xF0, 0x20, 0x60, 0x20, 0x20, 0x70, 0xF0, 0x10, 0xF0, 0x80, 0xF0, 0xF0] := by decide

/-- T79. -/
theorem test_ldLoad_outside : runFault 0xF165 { State.reset with i := 0xFFF } = some (.outOfBounds 0x1000 0x200) := by
  decide

/-! ## Display -/

/-- The framebuffer with just the listed pixels (x, y) set. -/
def pixels (l : List (Nat × Nat)) : Framebuffer := l.foldl (fun f p => f.toggle (pixelIndex p.1 p.2)) Framebuffer.blank

/-- T80. -/
theorem test_cls :
    Gives 0x00E0 { State.reset with fb := pixels [(0, 0), (63, 31)] } fun s => { s with pc := 0x202, fb := pixels [] } := by
  decide

/-- T82: a collision. -/
theorem test_drw_collision :
    Gives 0xD011 { State.reset with fb := pixels [(0, 0)] }
      fun s => { s.setReg 0xF 1 with pc := 0x202, fb := pixels [(1, 0), (2, 0), (3, 0)] } := by decide

/-- T83: the right edge wraps. -/
theorem test_drw_wraps :
    Gives 0xD121 (withBytes [(0x300, 0xFF)] { withRegs [(1, 0x3E), (2, 0x1F)] with i := 0x300 })
      fun s => { s with
        pc := 0x202
        fb := pixels [(62, 31), (63, 31), (0, 31), (1, 31), (2, 31), (3, 31), (4, 31), (5, 31)] } := by decide

/-- 44_display.md R262 against R267: where every pixel of the sprite was set, the second of two draws leaves VF = 0 (log entry 18). -/
theorem test_second_draw_flag_clear :
    (((nextOf (exec (.drw 0 0 1) { State.reset with fb := pixels [(0, 0), (1, 0), (2, 0), (3, 0)] })).bind
      fun t => nextOf (exec (.drw 0 0 1) t)).map fun u => (u.reg 0xF, u.fb)) =
      some (0, pixels [(0, 0), (1, 0), (2, 0), (3, 0)]) := by decide

/-! ## Keys and timers -/

/-- The reset state with the listed keys pressed. -/
def withKeys (l : List Reg) (s : State) : State := l.foldl (fun s k => s.setKeyAt k true) s

/-- T89. -/
theorem test_skp : Gives 0xE59E (withKeys [0xA] (withRegs [(5, 0xA)])) fun s => { s with pc := 0x204 } := by decide

/-- T93. -/
theorem test_skp_bad_key : runFault 0xE59E (withRegs [(5, 0x10)]) = some (.badKeyIndex 0x10 0x200) := by decide

/-- T91. -/
theorem test_sknp : Gives 0xE5A1 (withRegs [(5, 0xA)]) fun s => { s with pc := 0x204 } := by decide

/-- T92. -/
theorem test_sknp_pressed : Gives 0xE5A1 (withKeys [0xA] (withRegs [(5, 0xA)])) fun s => { s with pc := 0x202 } := by decide

/-- T94. -/
theorem test_ldVxDt : Gives 0xF307 { State.reset with dt := 60 } fun s => (s.setReg 3 0x3C).setPc 0x202 := by decide

/-- T95. -/
theorem test_ldVxK_blocks : Gives 0xF40A { State.reset with pc := 0x300 } fun s => { s with await := true } := by decide

/-- T96. -/
theorem test_ldVxK_completes :
    Gives 0xF40A (withKeys [7] { State.reset with pc := 0x300, await := true })
      fun s => { s.setReg 4 7 with pc := 0x302, await := false } := by decide

/-- T97: of two keys the draw picks 9. -/
theorem test_ldVxK_draw :
    (nextOf (execWith ⟨0, 9⟩ (.ldVxK 4) (withKeys [3, 9] State.reset))).map (fun t => t.reg 4) = some 9 := by decide

/-- T99. -/
theorem test_ldDt : Gives 0xF015 (withRegs [(0, 5)]) fun s => { s with pc := 0x202, dt := 5 } := by decide

/-- T100. -/
theorem test_ldSt : Gives 0xF018 (withRegs [(0, 1)]) fun s => { s with pc := 0x202, st := 1 } := by decide

/-! ## The host's operations -/

/-- T104, T103, T105. -/
theorem test_tickTimers :
    tickTimers { State.reset with st := 1 } = (true, State.reset) ∧ tickTimers State.reset = (false, State.reset) ∧
    tickTimers { State.reset with dt := 3, st := 2 } = (false, { State.reset with dt := 2, st := 1 }) := by decide

/-- T107, T109. -/
theorem test_setKey :
    ((setKey 7 true State.reset).toOption.map fun t => t.pressedKeys) = some [7] ∧
    (setKey 16 true State.reset).toOption = none := by decide

/-- T110. -/
theorem test_hostReset :
    hostReset defaultFont (withKeys [4] { withRegs [(3, 7)] with pc := 0x2A0, sp := 2, await := true, mem := [(0x200, 0x12)] }) =
      State.reset := by decide

/-- T111. -/
theorem test_load :
    ((load [0xA2, 0xF0, 0x00] State.reset).toOption.map fun t => (t.mem, t.pc)) =
      some ([(0x200, 0xA2), (0x201, 0xF0)], 0x200) := by decide

/-! ## Witnesses: for each obligation with hypotheses, and for each clause, a state and operands that meet them -/

theorem witness_DecodeOfEncodeIsIdentity :
    (Instr.drw 15 15 15).wellFormed = true ∧ (Instr.jp 0xFFF).wellFormed = true := by decide

theorem witness_EncodeOfDecodeIsIdentity : decode 0xFF65 = .ok (.ldLoad 15) := by decide

theorem witness_DecodeIsExactlyOneRowOrUnknown : (⟨0x1000, 0xF000⟩ : OpcodeRow) ∈ opcodeTable := by decide

theorem witness_UnknownWordsAreTheSixClasses : decode 0x0FFF = .error (.unknown .sys 0x0FFF) := by decide

theorem witness_AssemblerLinesRoundTrip :
    (Instr.ldI 0xFFF).wellFormed = true ∧ assemble .drw [.v 15, .v 15, .num 15] = some (.drw 15 15 15) ∧
    assemble .shl [.v 15] = some (.shl 15 0) := by decide

theorem witness_StepRunsTheDecodedInstruction :
    State.reset.pc.toNat < 4095 ∧ decode State.reset.wordAtPc = .ok .nop := by decide

theorem witness_StepRunsTheDecodedInstruction_last :
    ({ State.reset with pc := 4094 } : State).pc.toNat < 4095 ∧
    decode ({ State.reset with pc := 4094 } : State).wordAtPc = .ok .nop := by decide

theorem witness_FetchOutsideMemoryReportsOutOfBounds :
    4095 ≤ ({ State.reset with pc := 4095 } : State).pc.toNat ∧ 4095 ≤ ({ State.reset with pc := 4096 } : State).pc.toNat := by
  decide

theorem witness_UnknownOpcodeIsReported :
    let s := State.reset.withFetchWord 16 0x5121
    s.pc.toNat < 4095 ∧ decode s.wordAtPc = .error (.unknown .skipEq 0x5121) := by decide

theorem witness_UnknownOpcodeIsReported_sys :
    (0x0001 : Word).toNat < 0x1000 ∧ (0x0FFF : Word).toNat < 0x1000 ∧ (0x0FFF : Word) ≠ 0x0000 ∧ (0x0FFF : Word) ≠ 0x00E0 ∧
    (0x0FFF : Word) ≠ 0x00EE := by decide

theorem witness_PlacedWordIsRun :
    ({ State.reset with pc := 4095 } : State).mem.wf ∧ State.reset.mem.wf ∧ decode 0x00E0 = .ok .cls := by decide

theorem witness_NopOnlyAdvances :
    State.reset.pc.toNat < 4095 ∧ State.reset.mem.read State.reset.pc.toNat = 0 ∧
    State.reset.mem.read (State.reset.pc.toNat + 1) = 0 := by decide

theorem witness_JumpSetsPc : (Instr.jp 0xFFF).wellFormed = true := by decide

theorem witness_JumpWithOffsetAddsV0 : (Instr.jpV0 0xFFF).wellFormed = true := by decide

theorem witness_CallPushesReturnAddress :
    (Instr.call 0xFFF).wellFormed = true ∧ ({ State.reset with sp := 15 } : State).sp.val < 16 ∧
    ({ State.reset with sp := 16 } : State).sp.val = 16 := by decide

theorem witness_ReturnPopsTopEntry :
    0 < ({ State.reset with sp := 1 } : State).sp.val ∧ 0 < ({ State.reset with sp := 16 } : State).sp.val ∧
    (15 : Reg).val + 1 = ({ State.reset with sp := 16 } : State).sp.val ∧ State.reset.sp.val = 0 := by decide

theorem witness_CallThenReturnComesBack :
    exec (.call 0x400) State.reset =
      .next { State.reset with pc := 0x400, sp := 1, stack := State.reset.stack.set 0 0x200 } := by rfl

/-- The last clause: an entry below the one that is pushed. -/
theorem witness_CallThenReturnComesBack_below :
    (nextOf (exec (.call 0x400) { State.reset with sp := 1 })).isSome = true ∧
    (0 : Reg).val < ({ State.reset with sp := 1 } : State).sp.val := by decide

theorem witness_OnlyControlInstructionsWritePc :
    exec (.seByte 0 0) State.reset = .next { State.reset with pc := 0x202 } ∧ (0x202 : Word) ≠ State.reset.pc := ⟨rfl, by decide⟩

theorem witness_OnlyControlInstructionsWritePc_wait :
    exec (.ldVxK 0) State.reset = .next { State.reset with pc := 0x1FE, await := true } ∧ (0x1FE : Word) ≠ State.reset.pc :=
  ⟨rfl, by decide⟩

/-- The clauses for NN = 00 and NN = FF, from the rule's words: 0 for every byte, and the byte itself (42_alu.md R225). -/
theorem witness_RandomIsMaskedDraw :
    (nextOf (execWith ⟨0xAB, 0⟩ (.rnd 0xA 0x00) State.reset)).map (fun t => t.reg 0xA) = some 0 ∧
    (nextOf (execWith ⟨0xAB, 0⟩ (.rnd 0xA 0xFF) State.reset)).map (fun t => t.reg 0xA) = some 0xAB ∧
    (0x0E : Reg) ≠ 0xA := by decide

/-- The same two clauses of `exec`, whose byte is free. -/
theorem witness_RandomIsMaskedDraw_exec :
    exec (.rnd 0 0x00) State.reset = .next (State.reset.random (Config.rng 0) 0 0x00).nextDraw ∧
    exec (.rnd 0 0xFF) State.reset = .next (State.reset.random (Config.rng 0) 0 0xFF).nextDraw := ⟨rfl, rfl⟩

theorem witness_AddSetsCarry : (14 : Reg) ≠ 15 ∧ 256 ≤ (0x80 : Byte).toNat + (0x80 : Byte).toNat := by decide

theorem witness_OnlyNamedRegistersChange :
    exec (.ldByte 0 1) State.reset = .next (withRegs [(0, 1)]) ∧ (withRegs [(0, 1)]).reg 0 ≠ State.reset.reg 0 := ⟨rfl, by decide⟩

theorem witness_BcdStoresThreeDigits :
    State.reset.mem.wf ∧
    (80 ≤ ({ State.reset with i := 80 } : State).i.toNat ∧ ({ State.reset with i := 80 } : State).i.toNat + 2 < 4096) ∧
    (80 ≤ ({ State.reset with i := 4093 } : State).i.toNat ∧ ({ State.reset with i := 4093 } : State).i.toNat + 2 < 4096) ∧
    ({ State.reset with i := 79 } : State).i.toNat < 80 ∧ 4096 ≤ ({ State.reset with i := 4094 } : State).i.toNat + 2 := by
  decide

theorem witness_BlockStoreWritesRegisters :
    State.reset.mem.wf ∧
    (80 ≤ ({ State.reset with i := 80 } : State).i.toNat ∧ ({ State.reset with i := 80 } : State).i.toNat + (15 : Reg).val < 4096) ∧
    (80 ≤ ({ State.reset with i := 4095 } : State).i.toNat ∧ ({ State.reset with i := 4095 } : State).i.toNat + (0 : Reg).val < 4096) ∧
    ({ State.reset with i := 79 } : State).i.toNat < 80 ∧
    4096 ≤ ({ State.reset with i := 4081 } : State).i.toNat + (15 : Reg).val := by decide

theorem witness_BlockLoadReadsRegisters :
    ({ State.reset with i := 4095 } : State).i.toNat + (0 : Reg).val < 4096 ∧
    4096 ≤ ({ State.reset with i := 4096 } : State).i.toNat + (0 : Reg).val := by decide

theorem witness_BlockStoreThenLoadGivesBack :
    State.reset.mem.wf ∧
    exec (.ldStore 0) { State.reset with i := 0x300 } = .next { State.reset with i := 0x300 } := ⟨by decide, rfl⟩

theorem witness_StoredRegistersAreFetchedAsAWord :
    State.reset.mem.wf ∧
    exec (.ldStore 15) { State.reset with i := 4080 } = .next { State.reset with i := 4080 } ∧
    (15 : Reg).val = (14 : Reg).val + 1 ∧ (15 : Reg).val ≤ (15 : Reg).val ∧
    (4094 : Word).toNat = ({ State.reset with i := 4080 } : State).i.toNat + (14 : Reg).val := ⟨by decide, rfl, by decide⟩

theorem witness_DrawFlipsSpritePixels :
    (Instr.drw 0 1 0).wellFormed = true ∧ (Instr.drw 0 1 15).wellFormed = true ∧
    ({ State.reset with i := 4081 } : State).i.toNat + 15 ≤ 4096 ∧ 4096 < ({ State.reset with i := 4096 } : State).i.toNat + 1 := by
  decide

/-- The flag clauses: glyph 0 drawn at the origin lights the pixel (0, 0), which is clear on a blank screen. -/
theorem witness_DrawFlipsSpritePixels_lit :
    (State.reset.mem.read (State.reset.i.toNat + 0)).getLsbD (7 - 0) = true ∧ State.reset.fb.cell 0 = false ∧
    ({ State.reset with fb := pixels [(0, 0)] } : State).fb.cell 0 = true := by decide

/-- On a blank screen no lit pixel was set. -/
theorem witness_DrawFlipsSpritePixels_blank : ∀ p, State.reset.fb.cell p = false := cell_blank

theorem witness_DrawTwiceRestores :
    (Instr.drw 0 1 1).wellFormed = true ∧ (0 : Reg) ≠ 15 ∧ (1 : Reg) ≠ 15 ∧
    (nextOf (exec (.drw 0 1 1) State.reset)).isSome = true ∧ State.reset.mem.read (State.reset.i.toNat + 0) ≠ 0 ∧
    (nextOf (exec (.drw 0 1 1) { State.reset with i := 0x300 })).isSome = true ∧ State.reset.mem.read (0x300 + 0) = 0 := by decide

theorem witness_KeySkipsTestTheKey :
    ((withRegs [(5, 15)]).reg 5).toNat = (15 : Reg).val ∧ 15 < ((withRegs [(5, 16)]).reg 5).toNat := by decide

theorem witness_KeyWaitBlocksOrReportsAPressedKey :
    (∀ k : Reg, State.reset.key[k.val] = false) ∧ (∃ k : Reg, (withKeys [15] State.reset).key[k.val] = true) := by decide

theorem witness_EveryPressedKeyCanBeReported :
    (withKeys [3, 9] State.reset).key[(9 : Reg).val] = true ∧ (withKeys [3, 9] State.reset).key[(4 : Reg).val] = false ∧
    ∃ j k : Reg, j ≠ k ∧ (withKeys [3, 9] State.reset).key[j.val] = true ∧ (withKeys [3, 9] State.reset).key[k.val] = true := by
  decide

/-- The clause for fewer than two keys: none, and one. -/
theorem witness_EveryPressedKeyCanBeReported_few :
    (∀ j k : Reg, State.reset.key[j.val] = true → State.reset.key[k.val] = true → j = k) ∧
    ∀ j k : Reg, (withKeys [7] State.reset).key[j.val] = true → (withKeys [7] State.reset).key[k.val] = true → j = k := by
  decide

theorem witness_AwaitMeansBlockedInKeyWait :
    step (State.reset.withFetchWord 16 0xF40A) = .next { State.reset.withFetchWord 16 0xF40A with await := true } := by rfl

theorem witness_TimerTicksReachZeroWithOneBeep :
    0 < ({ State.reset with st := 1 } : State).st.toNat ∧ ({ State.reset with st := 1 } : State).st.toNat ≤ 1 := by decide

theorem witness_SetKeyWritesOneKey : 15 < 16 ∧ 16 ≤ 16 := by decide

theorem witness_LoadWritesProgramBytesOnly :
    State.reset.mem.wf ∧ (List.replicate 3584 (0xFF : Byte)).length ≤ 3584 ∧ 3584 < (List.replicate 3585 (0xFF : Byte)).length := by
  rw [List.length_replicate, List.length_replicate]
  decide

theorem witness_HostReadsGiveTheStateUnchanged : 63 < 64 ∧ 31 < 32 ∧ 31 * 64 + 63 = 2047 := by decide

theorem witness_ErrorLeavesThePreTickState :
    tick .advance ⟨0, 0⟩ (State.reset.withFetchWord 16 0x00EE) =
      .ok (.error (.stackUnderflow 0x200), (State.reset.withFetchWord 16 0x00EE).setPc 0x202) ∧
    (State.reset.withFetchWord 16 0x00EE).pc.toNat < 4095 := ⟨rfl, by decide⟩

theorem witness_ErrorLeavesThePreTickState_fetch :
    tick .restore ⟨0, 0⟩ { State.reset with pc := 0xFFF } =
      .ok (.error (.outOfBounds 0x1000 0xFFF), { State.reset with pc := 0xFFF }) ∧
    4095 ≤ ({ State.reset with pc := 0xFFF } : State).pc.toNat := ⟨rfl, by decide⟩

theorem witness_ErrorsOfEachInstruction_stack :
    exec .ret State.reset = .fault (.stackUnderflow 0x1FE) ∧
    exec (.call 0) { State.reset with sp := 16 } = .fault (.stackOverflow 0x1FE) := ⟨rfl, rfl⟩

theorem witness_ErrorsOfEachInstruction_memory :
    exec (.drw 0 0 1) { State.reset with i := 4096 } = .fault (.outOfBounds 4096 0x1FE) ∧
    exec (.ldB 0) { State.reset with i := 4094 } = .fault (.outOfBounds 4096 0x1FE) ∧
    exec (.ldB 0) { State.reset with i := 79 } = .fault (.readOnlyWrite 79 0x1FE) ∧
    exec (.ldStore 15) { State.reset with i := 4081 } = .fault (.outOfBounds 4096 0x1FE) ∧
    exec (.ldStore 0) { State.reset with i := 0 } = .fault (.readOnlyWrite 0 0x1FE) ∧
    exec (.ldLoad 0) { State.reset with i := 4096 } = .fault (.outOfBounds 4096 0x1FE) := ⟨rfl, rfl, rfl, rfl, rfl, rfl⟩

theorem witness_ErrorsOfEachInstruction_key :
    exec (.skp 5) (withRegs [(5, 16)]) = .fault (.badKeyIndex 16 0x1FE) ∧
    exec (.sknp 5) (withRegs [(5, 255)]) = .fault (.badKeyIndex 255 0x1FE) := ⟨rfl, rfl⟩

theorem witness_EveryErrorNamesItsInstruction :
    step (State.reset.withFetchWord 16 0x00EE) = .fault (.stackUnderflow 0x200) := by rfl

theorem witness_NothingIsRefused :
    (withKeys [0] State.reset).key[(⟨0, 0⟩ : Draws).kp.val] = true ∧
    (∀ j k : Reg, State.reset.key[j.val] = true → State.reset.key[k.val] = true → j = k) ∧
    decode (withKeys [3, 9] State.reset).wordAtPc = .ok .nop := by decide

/-- The third clause covers a tick that ends Waiting. -/
theorem witness_NothingIsRefused_waiting :
    tick .advance ⟨0, 0⟩ (State.reset.withFetchWord 16 0xF40A) =
      .ok (.waiting, { State.reset.withFetchWord 16 0xF40A with await := true }) := by rfl

theorem witness_OnlyTheirInstructionsWriteEachElement :
    exec (.ldI 1) State.reset = .next { State.reset with i := 1 } ∧
    exec (.call 1) State.reset = .next { State.reset with pc := 1, sp := 1, stack := State.reset.stack.set 0 0x200 } ∧
    exec (.ldDt 0) (withRegs [(0, 1)]) = .next { withRegs [(0, 1)] with dt := 1 } ∧
    exec (.ldSt 0) (withRegs [(0, 1)]) = .next { withRegs [(0, 1)] with st := 1 } := ⟨rfl, rfl, rfl, rfl⟩

theorem witness_OnlyTheirInstructionsWriteEachElement_memory_and_screen :
    exec (.ldStore 0) { withRegs [(0, 1)] with i := 0x300 } =
      .next { withRegs [(0, 1)] with i := 0x300, mem := [(0x300, 1)] } ∧
    exec .cls { State.reset with fb := pixels [(0, 0)] } = .next State.reset ∧ pixels [(0, 0)] ≠ State.reset.fb :=
  ⟨rfl, rfl, by decide⟩

theorem witness_StepNeverChangesTheFont : State.reset.mem.wf ∧ step State.reset = .next { State.reset with pc := 0x202 } :=
  ⟨by decide, rfl⟩

theorem witness_ParityOfPcIsKept :
    decode State.reset.wordAtPc = .ok .nop ∧ step State.reset = .next { State.reset with pc := 0x202 } := ⟨by decide, rfl⟩

theorem witness_StepKeepsInvariant : State.reset.Inv ∧ step State.reset = .next { State.reset with pc := 0x202 } :=
  ⟨⟨by decide, by decide, by decide⟩, rfl⟩

theorem witness_ReachableStatesKeepInvariantAndFont : Reachable ⟨defaultFont, .advance⟩ (newCore defaultFont) := .boot

theorem witness_StepIsATickForSomeDraws :
    step State.reset = .next { State.reset with pc := 0x202 } ∧
    step { State.reset with pc := 0xFFF } = .fault (.outOfBounds 0x1000 0xFFF) := ⟨rfl, rfl⟩

theorem witness_TickRunsTheDecodedInstruction :
    State.reset.pc.toNat < 4095 ∧ decode State.reset.wordAtPc = .ok .nop ∧
    (∀ x nn, Instr.nop ≠ .rnd x nn) ∧ ∀ x, Instr.nop ≠ .ldVxK x := ⟨by decide, by decide, by simp, by simp⟩

/-- The three ends of the instruction's rule: a next state, an error, a refused draw. -/
theorem witness_TickRunsTheDecodedInstruction_ends :
    execWith ⟨0, 0⟩ .nop State.reset = .next State.reset ∧
    execWith ⟨0, 0⟩ .ret State.reset = .fault (.stackUnderflow 0x1FE) ∧
    execWith ⟨0, 4⟩ (.ldVxK 0) (withKeys [3, 9] State.reset) = .refused (.keyDrawNotPressed 4) := ⟨rfl, rfl, rfl⟩

theorem witness_HostStepKeepsInvariantAndFont :
    State.reset.Inv ∧ (∀ a : Fin 80, State.reset.mem.read a.val = defaultFont[a.val]) ∧
    hostStep ⟨defaultFont, .advance⟩ (.load [0xA2]) State.reset = .ok (.nothing, { State.reset with mem := [(0x200, 0xA2)] }) :=
  ⟨⟨by decide, by decide, by decide⟩, by decide, rfl⟩

/-- A tick that errs is among the operations. -/
theorem witness_HostStepKeepsInvariantAndFont_error :
    hostStep ⟨defaultFont, .restore⟩ (.tick ⟨0, 0⟩) { State.reset with pc := 0xFFF } =
      .ok (.tick (.error (.outOfBounds 0x1000 0xFFF)), { State.reset with pc := 0xFFF }) := by rfl

end Sys2Proof.Tests
end

section
/-! The statements of 10_state.md: which elements of the state an instruction writes, when AWAIT is set, and the canonical state. -/

namespace Sys2Proof.Proofs

open Sys2Proof Sys2Proof.Machine Sys2Proof.Config

/-! ## The elements each instruction writes -/

/-- The elements an instruction can write, all others being as before: the table of 10_state.md R45, with the model's own draw index beside VX where a rule reads a free draw. -/
def Footprint (i : Instr) (s t : State) : Prop :=
  match i with
  | .ldI _ | .addI _ | .ldF _ => t = { s with i := t.i }
  | .ldB _ | .ldStore _ => t = { s with mem := t.mem }
  | .call _ => t = { s with pc := t.pc, stack := t.stack, sp := t.sp }
  | .ret => t = { s with pc := t.pc, sp := t.sp }
  | .ldDt _ => t = { s with dt := t.dt }
  | .ldSt _ => t = { s with st := t.st }
  | .cls => t = { s with fb := t.fb }
  | .drw _ _ _ => t = { s with v := t.v, fb := t.fb }
  | .ldVxK _ => t = { s with v := t.v, pc := t.pc, await := t.await, draws := t.draws }
  | .rnd _ _ => t = { s with v := t.v, draws := t.draws }
  | .nop => t = s
  | .jp _ | .jpV0 _ | .skp _ | .sknp _ => t = { s with pc := t.pc }
  | .seByte _ _ | .sneByte _ _ | .seReg _ _ | .sneReg _ _ => t = { s with pc := t.pc }
  | .ldByte _ _ | .addByte _ _ | .ldVxDt _ | .ldLoad _ => t = { s with v := t.v }
  | .ldReg _ _ | .or _ _ | .and _ _ | .xor _ _ => t = { s with v := t.v }
  | .addReg _ _ | .sub _ _ | .shr _ _ | .subn _ _ | .shl _ _ => t = { s with v := t.v }

/-- No instruction writes outside its footprint: the update its rule makes is a known one (`exec_next`), and each of those touches its own fields alone. -/
theorem exec_footprint {i : Instr} {s t : State} (h : exec i s = .next t) : Footprint i s t := by
  have he := exec_next h
  cases i with
  | ret | call | drw | ldLoad =>
    obtain ⟨_, rfl⟩ := he
    rfl
  | ldB | ldStore =>
    obtain ⟨_, _, rfl⟩ := he
    rfl
  | ldVxK => obtain ⟨_, rfl⟩ | ⟨_, rfl⟩ := he <;> rfl
  | seByte | sneByte | seReg | sneReg =>
    obtain rfl := he
    rw [State.skipIf_eq]
    rfl
  | skp | sknp =>
    obtain ⟨_, _, rfl⟩ := he
    rw [State.skipIf_eq]
    rfl
  | addByte | ldReg | or | and | xor | addReg | sub | shr | subn | shl =>
    obtain rfl := he
    exact aluWrite_eq s _ _ _
  | _ =>
    obtain rfl := he
    rfl

/-- Settles O49: what the footprint of an instruction does not name is as before. -/
theorem onlyTheirInstructionsWriteEachElement : Obligations.OnlyTheirInstructionsWriteEachElement := by
  intro i s t h
  have hf := exec_footprint h
  cases i with
  | _ =>
    simp only [Footprint] at hf
    rw [hf]
    simp

/-! ## AWAIT -/

/-- Where AWAIT was clear, only a blocked FX0A ends with it set (10_state.md R42). -/
theorem exec_await_iff {i : Instr} {s t : State} (h : exec i s = .next t) (hs : s.await = false) :
    t.await = true ↔ (∃ x, i = .ldVxK x) ∧ s.pressedKeys = [] := by
  cases i with
  | ldVxK => obtain ⟨hk, rfl⟩ | ⟨hk, rfl⟩ := exec_next h <;> simp [hk]
  | _ =>
    have hf := exec_footprint h
    simp only [Footprint] at hf
    rw [hf]
    simp [hs]

/-- A blocked FX0A takes back the fetch's advance, so that the tick leaves all but AWAIT as before it (45_timers_keys.md R284). -/
theorem execLdVxK_afterFetch_blocked {s : State} (x : Reg) (hk : s.pressedKeys = []) :
    exec (.ldVxK x) ((s.setPc (s.pc + 2)).setAwait false) = .next { s with await := true } := by
  change execLdVxK x _ = _
  rw [execLdVxK_blocked x (by simpa using hk), aIns_afterFetch]
  rfl

/-- Settles O38: the tick clears AWAIT before the instruction's rule, and of all the rules only the blocked FX0A sets it. -/
theorem awaitMeansBlockedInKeyWait : Obligations.AwaitMeansBlockedInKeyWait := by
  intro s t h
  obtain ⟨i, -, hd, hrun⟩ := runTick_next h
  have hiff : t.await = true ↔ (∃ x, i = .ldVxK x) ∧ s.pressedKeys = [] := by
    simpa using exec_await_iff hrun rfl
  refine ⟨?_, fun ht => ?_⟩
  · rw [hiff, pressedKeys_eq_nil, hd]
    simp [State.pressed]
  · obtain ⟨⟨x, rfl⟩, hk⟩ := hiff.1 ht
    rw [execLdVxK_afterFetch_blocked x hk] at hrun
    cases hrun
    exact ⟨rfl, rfl⟩

/-! ## The canonical state -/

/-- Settles O43: `reset()` differs from `new()` in the draw index alone, so both clauses are the one about `new()`. -/
theorem newAndResetGiveTheCanonicalState : Obligations.NewAndResetGiveTheCanonicalState := by
  intro font s canonical
  have hnew : canonical (newCore font) := by
    refine ⟨fun a => ?_, fun a ha _ => ?_, fun q => ?_, rfl, rfl, fun k => ?_, rfl, rfl, rfl, fun k => ?_,
      fun p _ => cell_blank p, rfl⟩
    · exact (resetWith_read font a).trans (dif_pos a.isLt)
    · exact (resetWith_read font a).trans (dif_neg (by omega))
    · exact Vector.getElem_replicate q.isLt
    · exact Vector.getElem_replicate k.isLt
    · exact Vector.getElem_replicate k.isLt
  exact ⟨hnew, hnew⟩

end Sys2Proof.Proofs
end

section
/-! The statements of 20_memory.md: the bounds of pc, the stack and memory that every step keeps, the parity of pc, and the byte order of stored registers. -/

namespace Sys2Proof.Proofs

open Sys2Proof Sys2Proof.Machine Sys2Proof.Config

/-! ## Decoded operands -/

@[simp] theorem addrOk_fieldNNN (w : Word) : addrOk (fieldNNN w) = true := by
  simp only [addrOk, fieldNNN, bits, BitVec.toNat_ofNat, decide_eq_true_eq]
  omega

@[simp] theorem rowsOk_fieldN (w : Word) : rowsOk (fieldN w) = true :=
  decide_eq_true (Nat.mod_lt _ (by decide))

/-- What decodes is well-formed: the operands that need a check are NNN and N, and a field never exceeds its width (30_encoding.md R104, R108). -/
theorem decode_wellFormed {w : Word} {i : Instr} (h : decode w = .ok i) : i.wellFormed = true := by
  unfold decode at h
  repeat' split at h
  all_goals cases h
  all_goals simp [Instr.wellFormed]

/-! ## Where an instruction leaves pc -/

/-- Where pc can stand after an instruction's rule, read in the state before it, which is the one after the fetch (41_control.md R195). -/
def PcEffect (i : Instr) (s t : State) : Prop :=
  match i with
  | .ret => ∃ k : Reg, k.val < s.sp.val ∧ t.pc = s.stack[k.val]
  | .jp a | .call a => t.pc = a
  | .jpV0 a => t.pc = s.offsetTarget a
  | .seByte _ _ | .sneByte _ _ | .seReg _ _ | .sneReg _ _ | .skp _ | .sknp _ => t.pc = s.pc ∨ t.pc = s.pc + 2
  | .ldVxK _ => t.pc = s.pc ∨ (s.pressedKeys = [] ∧ t.pc = s.aIns)
  | _ => t.pc = s.pc

theorem skipIf_pc_cases (s : State) (c : Bool) : (s.skipIf c).pc = s.pc ∨ (s.skipIf c).pc = s.pc + 2 := by
  cases c
  · exact .inl rfl
  · exact .inr rfl

theorem exec_pcEffect {i : Instr} {s t : State} (h : exec i s = .next t) : PcEffect i s t := by
  have he := exec_next h
  cases i with
  | ret =>
    obtain ⟨hsp, rfl⟩ := he
    have := s.sp.isLt
    exact ⟨⟨s.sp.val - 1, by omega⟩, Nat.sub_one_lt hsp, rfl⟩
  | jp | jpV0 =>
    obtain rfl := he
    rfl
  | call =>
    obtain ⟨_, rfl⟩ := he
    rfl
  | seByte | sneByte | seReg | sneReg =>
    obtain rfl := he
    exact skipIf_pc_cases s _
  | skp | sknp =>
    obtain ⟨_, _, rfl⟩ := he
    exact skipIf_pc_cases s _
  | ldVxK =>
    obtain ⟨hk, rfl⟩ | ⟨_, rfl⟩ := he
    · exact .inr ⟨hk, rfl⟩
    · exact .inl rfl
  | _ =>
    have hf := exec_footprint h
    simp only [Footprint] at hf
    rw [hf]
    rfl

/-! ## What an instruction does to memory -/

/-- VX's decimal digits are three bytes (43_index_memory.md R244). -/
@[simp] theorem length_bcdDigits (a : Byte) : (bcdDigits a).length = 3 := rfl

@[simp] theorem length_regsUpTo (s : State) (x : Reg) : (s.regsUpTo x).length = x.val + 1 := by
  have := x.isLt
  simp only [State.regsUpTo, List.length_take, Vector.length_toList]
  omega

/-- An instruction leaves memory alone or stores bytes at I, all of them in [80, 4096) (20_memory.md R73). -/
theorem exec_mem_cases {i : Instr} {s t : State} (h : exec i s = .next t) :
    t.mem = s.mem ∨ ∃ bs : List Byte,
      80 ≤ s.i.toNat ∧ s.i.toNat + bs.length ≤ 4096 ∧ t.mem = s.mem.store s.i.toNat bs := by
  cases i with
  | ldB | ldStore =>
    obtain ⟨hlow, hend, rfl⟩ := exec_next h
    exact .inr ⟨_, hlow, by simpa using hend, rfl⟩
  | _ =>
    have hf := exec_footprint h
    simp only [Footprint] at hf
    rw [hf]
    exact .inl rfl

/-! ## The invariant -/

/-- pc stays within the largest jump target, from every pc that a fetch can leave (20_memory.md R81). -/
theorem exec_keeps_pcBounded {i : Instr} {s t : State} (hi : i.wellFormed = true) (hstack : s.stackBounded)
    (hlo : 2 ≤ s.pc.toNat) (hhi : s.pc.toNat ≤ 0x1000) (h : exec i s = .next t) : t.pcBounded := by
  unfold State.pcBounded
  cases i with
  | ret =>
    obtain ⟨k, hk, hpc⟩ := exec_pcEffect h
    rw [hpc]
    exact (hstack k hk).trans (by decide)
  | jp a | call a =>
    have hpc : t.pc = a := exec_pcEffect h
    have ha : a.toNat < 0x1000 := by simpa [Instr.wellFormed, addrOk] using hi
    rw [hpc]
    omega
  | jpV0 a =>
    have hpc : t.pc = s.offsetTarget a := exec_pcEffect h
    have ha : a.toNat < 0x1000 := by simpa [Instr.wellFormed, addrOk] using hi
    have hv := (s.reg 0).isLt
    rw [hpc]
    simp only [State.offsetTarget, zext16, BitVec.truncate_eq_setWidth, BitVec.toNat_add, BitVec.toNat_setWidth]
    omega
  | seByte | sneByte | seReg | sneReg | skp | sknp =>
    obtain hpc | hpc := exec_pcEffect h <;> bv_omega
  | ldVxK =>
    obtain hpc | ⟨-, hpc⟩ := exec_pcEffect h
    · bv_omega
    · unfold State.aIns at hpc
      bv_omega
  | _ =>
    have hpc : t.pc = s.pc := exec_pcEffect h
    rw [hpc]
    omega

/-- The stack entries in use stay within their bound: only CALL adds one, the pc it returns to (41_control.md R181, R182). -/
theorem exec_keeps_stackBounded {i : Instr} {s t : State} (hstack : s.stackBounded) (hhi : s.pc.toNat ≤ 0x1000)
    (h : exec i s = .next t) : t.stackBounded := by
  cases i with
  | ret =>
    obtain ⟨_, rfl⟩ := exec_next h
    exact fun k hk => hstack k (by simp only at hk; omega)
  | call a =>
    obtain ⟨hsp, rfl⟩ := exec_next h
    intro k hk
    simp only [Vector.getElem_set] at hk ⊢
    split_ifs with heq
    · exact hhi
    · exact hstack k (by omega)
  | _ =>
    have hf := exec_footprint h
    simp only [Footprint] at hf
    rw [hf]
    exact hstack

theorem exec_keeps_memWf {i : Instr} {s t : State} (hmem : s.mem.wf) (h : exec i s = .next t) : t.mem.wf := by
  obtain hsame | ⟨bs, -, hend, hstore⟩ := exec_mem_cases h
  · rwa [hsame]
  · rw [hstore]
    exact Memory.wf_store hmem hend

/-- An instruction's rule keeps the invariant in the states a fetch can leave. -/
theorem exec_keeps_inv {i : Instr} {s t : State} (hi : i.wellFormed = true) (hs : s.Inv)
    (hlo : 2 ≤ s.pc.toNat) (hhi : s.pc.toNat ≤ 0x1000) (h : exec i s = .next t) : t.Inv where
  memWf := exec_keeps_memWf hs.memWf h
  pcBounded := exec_keeps_pcBounded hi hs.stackBounded hlo hhi h
  stackBounded := exec_keeps_stackBounded hs.stackBounded hhi h

/-- A fetch that succeeds advances pc without wrap (40_interface_fetch_decode.md R153). -/
theorem toNat_pc_afterFetch {s : State} (hp : s.pc.toNat < 4095) :
    ((s.setPc (s.pc + 2)).setAwait false).pc.toNat = s.pc.toNat + 2 := by
  simp only [State.setAwait_pc, State.setPc_pc]
  bv_omega

theorem inv_afterFetch {s : State} (hs : s.Inv) (hp : s.pc.toNat < 4095) :
    ((s.setPc (s.pc + 2)).setAwait false).Inv where
  memWf := hs.memWf
  pcBounded := by
    rw [State.pcBounded, toNat_pc_afterFetch hp]
    omega
  stackBounded := hs.stackBounded

/-- Settles O52: the fetch leaves pc within 0x1000, and from there the instruction's rule keeps each of the three bounds. -/
theorem stepKeepsInvariant : Obligations.StepKeepsInvariant := by
  intro s t hs h
  obtain ⟨i, hp, hd, hrun⟩ := runTick_next h
  have hpc := toNat_pc_afterFetch hp
  exact exec_keeps_inv (decode_wellFormed hd) (inv_afterFetch hs hp) (by omega) (by omega) hrun

/-! ## The parity of pc -/

/-- Settles O51: the fetch adds 2, and the rule of an instruction that does not jump leaves pc, adds 2 to it or takes the fetch's 2 back. -/
theorem parityOfPcIsKept : Obligations.ParityOfPcIsKept := by
  intro s t i hd h
  obtain ⟨j, hp, hd', hrun⟩ := runTick_next h
  obtain rfl : j = i := Except.ok.inj (hd'.symm.trans hd)
  have hpc := exec_pcEffect hrun
  simp only [PcEffect, aIns_afterFetch, State.setAwait_pc, State.setPc_pc] at hpc
  cases j with
  | ret | jp | call | jpV0 => trivial
  | seByte | sneByte | seReg | sneReg | skp | sknp => obtain hpc | hpc := hpc <;> bv_omega
  | ldVxK => obtain hpc | ⟨-, hpc⟩ := hpc <;> bv_omega
  | _ => bv_omega

/-! ## Stored registers as a word -/

theorem getElem_regsUpTo (s : State) (x k : Reg) (h : k.val < (s.regsUpTo x).length) :
    (s.regsUpTo x)[k.val] = s.reg k := by
  simp [State.regsUpTo, State.reg]

/-- FX55 leaves V0..VX at I..I+X (43_index_memory.md R245). -/
theorem read_storeRegs {s : State} {x k : Reg} (hmem : s.mem.wf) (hend : s.i.toNat + (x.val + 1) ≤ 4096)
    (hk : k.val ≤ x.val) :
    (s.storeBytes s.i.toNat (s.regsUpTo x)).mem.read (s.i.toNat + k.val) = s.reg k := by
  rw [State.storeBytes_mem, Memory.read_store hmem (by simpa using hend), dif_pos (by rw [length_regsUpTo]; omega)]
  simp only [Nat.add_sub_cancel_left, getElem_regsUpTo]

/-- Settles O30: the two bytes the fetch reads are two neighbours of the stored registers. -/
theorem storedRegistersAreFetchedAsAWord : Obligations.StoredRegistersAreFetchedAsAWord := by
  intro x j k s t hmem h hjk hjx pc hpc
  obtain ⟨-, hend, rfl⟩ := exec_next h
  have hhi := read_storeRegs hmem hend (k := k) (by omega)
  have hlo := read_storeRegs hmem hend hjx
  rw [hjk, ← Nat.add_assoc] at hlo
  rw [fetch_eq]
  simp only [hpc, hhi, hlo]
  rw [if_pos (by omega)]
  rfl

end Sys2Proof.Proofs
end

section
/-! The statements of 30_encoding.md: decoding and encoding undo each other, the table's rows and the unknown words share out all words, and an unknown word stops its tick. -/

namespace Sys2Proof.Proofs

open Sys2Proof Sys2Proof.Machine Sys2Proof.Config

/-! ## A word as its fields, each under its mask -/

/-- A field put back in its place is the word under the field's mask (30_encoding.md R101). -/
theorem bits_shiftLeft (w : Word) (hi lo : Nat) :
    BitVec.ofNat 16 (bits w hi lo) <<< lo = w &&& (BitVec.ofNat 16 (2 ^ (hi - lo + 1) - 1) <<< lo) := by
  apply BitVec.eq_of_getLsbD_eq
  intro i hi'
  by_cases h : i < lo
  · simp [h]
  · have hback : i - lo + lo = i := by omega
    have hlt : i - lo < 16 := by omega
    simp only [bits, BitVec.getLsbD_and, BitVec.getLsbD_shiftLeft, BitVec.getLsbD_ofNat, Nat.testBit_mod_two_pow,
      Nat.testBit_div_two_pow, Nat.testBit_two_pow_sub_one, hback, BitVec.testBit_toNat]
    simp [h, hlt, hi', Bool.and_comm]

theorem val_fieldX (w : Word) : (fieldX w).val = bits w 11 8 := Nat.mod_mod _ _

theorem val_fieldY (w : Word) : (fieldY w).val = bits w 7 4 := Nat.mod_mod _ _

theorem zext16_fieldNN (w : Word) : zext16 (fieldNN w) = BitVec.ofNat 16 (bits w 7 0) := by
  apply BitVec.eq_of_toNat_eq
  simp [fieldNN, bits]

theorem fieldOp_eq_and (w : Word) : BitVec.ofNat 16 (fieldOp w) <<< 12 = w &&& (0xF000 : Word) :=
  bits_shiftLeft w 15 12

theorem fieldX_eq_and (w : Word) : BitVec.ofNat 16 (fieldX w).val <<< 8 = w &&& (0x0F00 : Word) := by
  rw [val_fieldX]
  exact bits_shiftLeft w 11 8

theorem fieldY_eq_and (w : Word) : BitVec.ofNat 16 (fieldY w).val <<< 4 = w &&& (0x00F0 : Word) := by
  rw [val_fieldY]
  exact bits_shiftLeft w 7 4

theorem fieldN_eq_and (w : Word) : BitVec.ofNat 16 (fieldN w) = w &&& (0x000F : Word) := by
  simpa [fieldN] using bits_shiftLeft w 3 0

theorem fieldNN_eq_and (w : Word) : zext16 (fieldNN w) = w &&& (0x00FF : Word) := by
  rw [zext16_fieldNN]
  simpa using bits_shiftLeft w 7 0

theorem fieldNNN_eq_and (w : Word) : fieldNNN w = w &&& (0x0FFF : Word) := by
  simpa [fieldNNN] using bits_shiftLeft w 11 0

/-! ## A word from the row it selects and its fields -/

theorem selects_iff (r : OpcodeRow) (w : Word) : r.selects w = true ↔ w &&& r.mask = r.pat := beq_iff_eq

/-- Form `nnn`: the pattern is the word under F000 and NNN is the rest of it (30_encoding.md R118). -/
theorem formNnn_of_selects {pat w : Word} (h : OpcodeRow.selects ⟨pat, 0xF000⟩ w = true) :
    formNnn pat (fieldNNN w) = w := by
  obtain rfl : w &&& 0xF000 = pat := (selects_iff _ w).1 h
  simp only [formNnn, fieldNNN_eq_and, ← BitVec.and_or_distrib_left]
  exact BitVec.and_allOnes

/-- Form `xnn`. -/
theorem formXnn_of_selects {pat w : Word} (h : OpcodeRow.selects ⟨pat, 0xF000⟩ w = true) :
    formXnn pat (fieldX w) (fieldNN w) = w := by
  obtain rfl : w &&& 0xF000 = pat := (selects_iff _ w).1 h
  simp only [formXnn, fieldX_eq_and, fieldNN_eq_and, ← BitVec.and_or_distrib_left]
  exact BitVec.and_allOnes

/-- Form `xyn`. -/
theorem formXyn_of_selects {pat w : Word} (h : OpcodeRow.selects ⟨pat, 0xF000⟩ w = true) :
    formXyn pat (fieldX w) (fieldY w) (fieldN w) = w := by
  obtain rfl : w &&& 0xF000 = pat := (selects_iff _ w).1 h
  simp only [formXyn, fieldX_eq_and, fieldY_eq_and, fieldN_eq_and, ← BitVec.and_or_distrib_left]
  exact BitVec.and_allOnes

/-- Form `xy`: N is part of the row's pattern. -/
theorem formXy_of_selects {pat w : Word} {n : Nat}
    (h : OpcodeRow.selects ⟨pat ||| BitVec.ofNat 16 n, 0xF00F⟩ w = true) :
    formXyn pat (fieldX w) (fieldY w) n = w := by
  have hw : w &&& 0xF00F = pat ||| BitVec.ofNat 16 n := (selects_iff _ w).1 h
  calc formXyn pat (fieldX w) (fieldY w) n
    _ = (w &&& 0xF00F) ||| (w &&& 0x0F00) ||| (w &&& 0x00F0) := by
      rw [hw, ← fieldX_eq_and, ← fieldY_eq_and, formXyn]
      ac_rfl
    _ = w := by
      simp only [← BitVec.and_or_distrib_left]
      exact BitVec.and_allOnes

/-- Form `x`: NN is part of the row's pattern. -/
theorem formX_of_selects {pat w : Word} {nn : Byte}
    (h : OpcodeRow.selects ⟨pat ||| zext16 nn, 0xF0FF⟩ w = true) :
    formXnn pat (fieldX w) nn = w := by
  have hw : w &&& 0xF0FF = pat ||| zext16 nn := (selects_iff _ w).1 h
  calc formXnn pat (fieldX w) nn
    _ = (w &&& 0xF0FF) ||| (w &&& 0x0F00) := by
      rw [hw, ← fieldX_eq_and, formXnn]
      ac_rfl
    _ = w := by
      simp only [← BitVec.and_or_distrib_left]
      exact BitVec.and_allOnes

/-- The instruction of the same row whose operands are the fields of `w` (30_encoding.md R102, R110). -/
def withFieldsOf (w : Word) : Instr → Instr
  | .nop => .nop
  | .cls => .cls
  | .ret => .ret
  | .jp _ => .jp (fieldNNN w)
  | .call _ => .call (fieldNNN w)
  | .seByte _ _ => .seByte (fieldX w) (fieldNN w)
  | .sneByte _ _ => .sneByte (fieldX w) (fieldNN w)
  | .seReg _ _ => .seReg (fieldX w) (fieldY w)
  | .ldByte _ _ => .ldByte (fieldX w) (fieldNN w)
  | .addByte _ _ => .addByte (fieldX w) (fieldNN w)
  | .ldReg _ _ => .ldReg (fieldX w) (fieldY w)
  | .or _ _ => .or (fieldX w) (fieldY w)
  | .and _ _ => .and (fieldX w) (fieldY w)
  | .xor _ _ => .xor (fieldX w) (fieldY w)
  | .addReg _ _ => .addReg (fieldX w) (fieldY w)
  | .sub _ _ => .sub (fieldX w) (fieldY w)
  | .shr _ _ => .shr (fieldX w) (fieldY w)
  | .subn _ _ => .subn (fieldX w) (fieldY w)
  | .shl _ _ => .shl (fieldX w) (fieldY w)
  | .sneReg _ _ => .sneReg (fieldX w) (fieldY w)
  | .ldI _ => .ldI (fieldNNN w)
  | .jpV0 _ => .jpV0 (fieldNNN w)
  | .rnd _ _ => .rnd (fieldX w) (fieldNN w)
  | .drw _ _ _ => .drw (fieldX w) (fieldY w) (fieldN w)
  | .skp _ => .skp (fieldX w)
  | .sknp _ => .sknp (fieldX w)
  | .ldVxDt _ => .ldVxDt (fieldX w)
  | .ldVxK _ => .ldVxK (fieldX w)
  | .ldDt _ => .ldDt (fieldX w)
  | .ldSt _ => .ldSt (fieldX w)
  | .addI _ => .addI (fieldX w)
  | .ldF _ => .ldF (fieldX w)
  | .ldB _ => .ldB (fieldX w)
  | .ldStore _ => .ldStore (fieldX w)
  | .ldLoad _ => .ldLoad (fieldX w)

@[simp] theorem opcodeRow_withFieldsOf (w : Word) (i : Instr) : opcodeRow (withFieldsOf w i) = opcodeRow i := by
  cases i <;> rfl

@[simp] theorem wellFormed_withFieldsOf (w : Word) (i : Instr) : (withFieldsOf w i).wellFormed = true := by
  cases i with
  | jp | call | ldI | jpV0 => exact addrOk_fieldNNN w
  | drw => exact rowsOk_fieldN w
  | _ => rfl

/-- The fields and the pattern of the row a word selects make up the whole word. -/
theorem encode_withFieldsOf {w : Word} {i : Instr} (h : (opcodeRow i).selects w = true) :
    encode (withFieldsOf w i) = w := by
  cases i with
  | nop | cls | ret => exact ((selects_iff _ w).1 h).symm.trans BitVec.and_allOnes
  | jp | call | ldI | jpV0 => exact formNnn_of_selects h
  | seByte | sneByte | ldByte | addByte | rnd => exact formXnn_of_selects h
  | drw => exact formXyn_of_selects h
  | seReg | sneReg | ldReg | or | and | xor | addReg | sub | shr | subn | shl => exact formXy_of_selects h
  | _ => exact formX_of_selects h

/-! ## A decoded word selects its instruction's row -/

theorem fieldOp_lt (w : Word) : fieldOp w < 16 := Nat.mod_lt _ (by decide)

/-- A row whose mask is OP (30_encoding.md R110). -/
theorem selects_of_op {w : Word} {k : Nat} (hop : fieldOp w = k) :
    OpcodeRow.selects ⟨BitVec.ofNat 16 k <<< 12, 0xF000⟩ w = true := by
  rw [selects_iff, ← hop, fieldOp_eq_and]

/-- A row whose mask is OP and N. -/
theorem selects_of_op_n {w : Word} {k n : Nat} (hop : fieldOp w = k) (hn : fieldN w = n) :
    OpcodeRow.selects ⟨BitVec.ofNat 16 k <<< 12 ||| BitVec.ofNat 16 n, 0xF00F⟩ w = true := by
  rw [selects_iff, ← hop, ← hn, fieldOp_eq_and, fieldN_eq_and, ← BitVec.and_or_distrib_left]
  rfl

/-- A row whose mask is OP and NN. -/
theorem selects_of_op_nn {w : Word} {k : Nat} {nn : Byte} (hop : fieldOp w = k) (hnn : fieldNN w = nn) :
    OpcodeRow.selects ⟨BitVec.ofNat 16 k <<< 12 ||| zext16 nn, 0xF0FF⟩ w = true := by
  rw [selects_iff, ← hop, ← hnn, fieldOp_eq_and, fieldNN_eq_and, ← BitVec.and_or_distrib_left]
  rfl

/-- The fields the decode procedure has compared are those under the row's mask (30_encoding.md R108, R110). -/
theorem opcodeRow_selects_of_decode {w : Word} {i : Instr} (h : decode w = .ok i) :
    (opcodeRow i).selects w = true := by
  unfold decode at h
  split at h
  case h_1 => -- 0000, 00E0, 00EE
    split_ifs at h with hw hw hw <;> cases h <;> rw [hw] <;> rfl
  case h_6 hop | h_10 hop => -- 5XY0, 9XY0
    split_ifs at h with hn
    cases h
    exact (selects_of_op_n hop hn :)
  case h_9 hop => -- 8XYN
    split at h <;> cases h <;> exact (selects_of_op_n hop ‹_› :)
  case h_15 hop => -- EXNN
    split_ifs at h with hnn hnn <;> cases h <;> exact (selects_of_op_nn hop hnn :)
  case h_16 => -- FXNN
    have hop : fieldOp w = 15 := by
      have := fieldOp_lt w
      grind
    split_ifs at h with hnn hnn hnn hnn hnn hnn hnn hnn hnn <;> cases h <;> exact (selects_of_op_nn hop hnn :)
  all_goals -- the rows that OP alone selects
    cases h
    exact (selects_of_op ‹_› :)

/-! ## Round trips -/

/-- Decoding a well-formed instruction's word gives it back, whatever its constructor (30_encoding.md R118). -/
theorem decode_encode : ∀ {i : Instr}, i.wellFormed = true → decode (encode i) = .ok i
  | .nop => Laws.RoundTrip.nop
  | .cls => Laws.RoundTrip.cls
  | .ret => Laws.RoundTrip.ret
  | .jp addr => Laws.RoundTrip.jp addr
  | .call addr => Laws.RoundTrip.call addr
  | .seByte x nn => Laws.RoundTrip.seByte x nn
  | .sneByte x nn => Laws.RoundTrip.sneByte x nn
  | .seReg x y => Laws.RoundTrip.seReg x y
  | .ldByte x nn => Laws.RoundTrip.ldByte x nn
  | .addByte x nn => Laws.RoundTrip.addByte x nn
  | .ldReg x y => Laws.RoundTrip.ldReg x y
  | .or x y => Laws.RoundTrip.or x y
  | .and x y => Laws.RoundTrip.and x y
  | .xor x y => Laws.RoundTrip.xor x y
  | .addReg x y => Laws.RoundTrip.addReg x y
  | .sub x y => Laws.RoundTrip.sub x y
  | .shr x y => Laws.RoundTrip.shr x y
  | .subn x y => Laws.RoundTrip.subn x y
  | .shl x y => Laws.RoundTrip.shl x y
  | .sneReg x y => Laws.RoundTrip.sneReg x y
  | .ldI addr => Laws.RoundTrip.ldI addr
  | .jpV0 addr => Laws.RoundTrip.jpV0 addr
  | .rnd x nn => Laws.RoundTrip.rnd x nn
  | .drw x y n => Laws.RoundTrip.drw x y n
  | .skp x => Laws.RoundTrip.skp x
  | .sknp x => Laws.RoundTrip.sknp x
  | .ldVxDt x => Laws.RoundTrip.ldVxDt x
  | .ldVxK x => Laws.RoundTrip.ldVxK x
  | .ldDt x => Laws.RoundTrip.ldDt x
  | .ldSt x => Laws.RoundTrip.ldSt x
  | .addI x => Laws.RoundTrip.addI x
  | .ldF x => Laws.RoundTrip.ldF x
  | .ldB x => Laws.RoundTrip.ldB x
  | .ldStore x => Laws.RoundTrip.ldStore x
  | .ldLoad x => Laws.RoundTrip.ldLoad x

/-- Settles O2: the word by the round trip of each constructor, the bytes because splitting a word and joining it loses nothing. -/
theorem decodeOfEncodeIsIdentity : Obligations.DecodeOfEncodeIsIdentity := by
  intro i rest hi
  refine ⟨decode_encode hi, ?_⟩
  change decodeBytes (highByte (encode i) :: lowByte (encode i) :: rest) = _
  rw [decodeBytes_split, decode_encode hi]

/-- A word that selects a row decodes to that row's instruction with the word's fields: it is that instruction's encoding. -/
theorem decode_of_selects {w : Word} {i : Instr} (h : (opcodeRow i).selects w = true) :
    decode w = .ok (withFieldsOf w i) := by
  have hd := decode_encode (wellFormed_withFieldsOf w i)
  rwa [encode_withFieldsOf h] at hd

/-- Encoding what a word decodes to gives the word back (30_encoding.md R118). -/
theorem encode_decode {w : Word} {i : Instr} (h : decode w = .ok i) : encode i = w := by
  have hsel := opcodeRow_selects_of_decode h
  have hi : withFieldsOf w i = i := Except.ok.inj ((decode_of_selects hsel).symm.trans h)
  rw [← hi]
  exact encode_withFieldsOf hsel

/-- Settles O3: a word selects the row of what it decodes to, so the row's pattern and the fields make up all of it. -/
theorem encodeOfDecodeIsIdentity : Obligations.EncodeOfDecodeIsIdentity :=
  fun _ _ h => ⟨decode_wellFormed h, encode_decode h⟩

/-! ## The six classes of unknown words -/

theorem fieldOp_eq (w : Word) : fieldOp w = w.toNat / 0x1000 := Nat.mod_eq_of_lt (by have := w.isLt; omega)

theorem fieldN_eq (w : Word) : fieldN w = w.toNat % 0x10 := by
  simp [fieldN, bits]

theorem fieldNN_eq_iff (w : Word) (b : Byte) : fieldNN w = b ↔ w.toNat % 0x100 = b.toNat := by
  simp [fieldNN, bits, BitVec.toNat_eq]

/-- The words of each class (30_encoding.md R111). -/
def InClass (w : Word) : UnknownClass → Prop
  | .sys => w.toNat / 0x1000 = 0x0 ∧ w ≠ 0x0000 ∧ w ≠ 0x00E0 ∧ w ≠ 0x00EE
  | .skipEq => w.toNat / 0x1000 = 0x5 ∧ w.toNat % 0x10 ≠ 0
  | .alu => w.toNat / 0x1000 = 0x8 ∧ w.toNat % 0x10 ∈ [0x8, 0x9, 0xA, 0xB, 0xC, 0xD, 0xF]
  | .skipNe => w.toNat / 0x1000 = 0x9 ∧ w.toNat % 0x10 ≠ 0
  | .keys => w.toNat / 0x1000 = 0xE ∧ w.toNat % 0x100 ∉ [0x9E, 0xA1]
  | .misc => w.toNat / 0x1000 = 0xF ∧ w.toNat % 0x100 ∉ [0x07, 0x0A, 0x15, 0x18, 0x1E, 0x29, 0x33, 0x55, 0x65]

/-- A rejected word is rejected under its own class, and the rejection names it (30_encoding.md R107). -/
theorem inClass_of_decode {w : Word} {e : Reject} (h : decode w = .error e) :
    ∃ c, e = .unknown c w ∧ InClass w c := by
  unfold decode at h
  split at h
  case h_1 hop =>
    split_ifs at h with h0 h1 h2
    cases h
    exact ⟨.sys, rfl, (fieldOp_eq w).symm.trans hop, h0, h1, h2⟩
  case h_6 hop =>
    split_ifs at h with hn
    cases h
    exact ⟨.skipEq, rfl, (fieldOp_eq w).symm.trans hop, by rwa [← fieldN_eq]⟩
  case h_9 hop =>
    split at h <;> cases h
    refine ⟨.alu, rfl, (fieldOp_eq w).symm.trans hop, ?_⟩
    have hlt : fieldN w < 16 := Nat.mod_lt _ (by decide)
    simp only [← fieldN_eq, List.mem_cons, List.not_mem_nil, or_false]
    grind
  case h_10 hop =>
    split_ifs at h with hn
    cases h
    exact ⟨.skipNe, rfl, (fieldOp_eq w).symm.trans hop, by rwa [← fieldN_eq]⟩
  case h_15 hop =>
    simp only [fieldNN_eq_iff] at h
    split_ifs at h
    cases h
    exact ⟨.keys, rfl, (fieldOp_eq w).symm.trans hop, by simp_all⟩
  case h_16 =>
    have hop : fieldOp w = 15 := by
      have := fieldOp_lt w
      grind
    simp only [fieldNN_eq_iff] at h
    split_ifs at h
    cases h
    exact ⟨.misc, rfl, (fieldOp_eq w).symm.trans hop, by simp_all⟩
  all_goals cases h

/-- A word of a class is rejected under it. -/
theorem decode_of_inClass {w : Word} {c : UnknownClass} (h : InClass w c) : decode w = .error (.unknown c w) := by
  cases c <;> simp only [InClass, ← fieldOp_eq, ← fieldN_eq] at h
  case sys =>
    obtain ⟨hop, h0, h1, h2⟩ := h
    simp only [decode, hop, if_neg h0, if_neg h1, if_neg h2]
  case skipEq | skipNe =>
    obtain ⟨hop, hn⟩ := h
    simp only [decode, hop, if_neg hn]
  case alu =>
    obtain ⟨hop, hn⟩ := h
    simp only [List.mem_cons, List.not_mem_nil, or_false] at hn
    obtain hn | hn | hn | hn | hn | hn | hn := hn <;> simp only [decode, hop, hn]
  case keys | misc =>
    obtain ⟨hop, hnn⟩ := h
    simp_all [decode, fieldNN_eq_iff]

/-- Settles O5: the classes of the decoder's rejections are the six of the rule, one for each of its error branches. -/
theorem unknownWordsAreTheSixClasses : Obligations.UnknownWordsAreTheSixClasses := by
  intro w
  constructor
  · rintro ⟨e, h⟩
    obtain ⟨c, -, hc⟩ := inClass_of_decode h
    cases c with
    | sys => exact .inl hc
    | skipEq => exact .inr (.inl hc)
    | alu => exact .inr (.inr (.inl hc))
    | skipNe => exact .inr (.inr (.inr (.inl hc)))
    | keys => exact .inr (.inr (.inr (.inr (.inl hc))))
    | misc => exact .inr (.inr (.inr (.inr (.inr hc))))
  · rintro (h | h | h | h | h | h)
    · exact ⟨_, decode_of_inClass (c := .sys) h⟩
    · exact ⟨_, decode_of_inClass (c := .skipEq) h⟩
    · exact ⟨_, decode_of_inClass (c := .alu) h⟩
    · exact ⟨_, decode_of_inClass (c := .skipNe) h⟩
    · exact ⟨_, decode_of_inClass (c := .keys) h⟩
    · exact ⟨_, decode_of_inClass (c := .misc) h⟩

/-! ## One row or Unknown -/

theorem mem_opcodeTable {r : OpcodeRow} : r ∈ opcodeTable ↔ ∃ i, opcodeRow i = r := by
  constructor
  · intro h
    obtain ⟨i, -, hi⟩ := List.mem_map.1 h
    exact ⟨i, hi⟩
  · rintro ⟨i, rfl⟩
    cases i with
    | _ => simp [opcodeRow, opcodeTable, rowSamples]

/-- A word selects no row but that of the instruction it decodes to. -/
theorem selects_iff_of_decode {w : Word} {i : Instr} {r : OpcodeRow} (h : decode w = .ok i) (hr : r ∈ opcodeTable) :
    r.selects w = true ↔ r = opcodeRow i := by
  obtain ⟨j, rfl⟩ := mem_opcodeTable.1 hr
  constructor
  · intro hsel
    obtain rfl : i = withFieldsOf w j := Except.ok.inj (h.symm.trans (decode_of_selects hsel))
    simp
  · intro hrow
    rw [hrow]
    exact opcodeRow_selects_of_decode h

/-- A word that selects a row decodes. -/
theorem exists_decode_of_selects {w : Word} {r : OpcodeRow} (hr : r ∈ opcodeTable) (h : r.selects w = true) :
    ∃ i, decode w = .ok i := by
  obtain ⟨j, rfl⟩ := mem_opcodeTable.1 hr
  exact ⟨_, decode_of_selects h⟩

theorem opcodeTable_nodup : opcodeTable.Nodup := by decide

theorem opcodeTable_disjoint :
    opcodeTable.Pairwise (fun r q => ∀ w : Word, ¬(r.selects w = true ∧ q.selects w = true)) := by
  refine opcodeTable_nodup.pairwise_of_forall_ne fun r hr q hq hne w ⟨hsel, hsel'⟩ => hne ?_
  obtain ⟨i, hd⟩ := exists_decode_of_selects hr hsel
  exact ((selects_iff_of_decode hd hr).1 hsel).trans ((selects_iff_of_decode hd hq).1 hsel').symm

/-- Settles O4: a row selects a word just when the word decodes to an instruction of that row, and decoding gives one answer. -/
theorem decodeIsExactlyOneRowOrUnknown : Obligations.DecodeIsExactlyOneRowOrUnknown := by
  refine ⟨rfl, opcodeTable_disjoint, fun w => ?_⟩
  cases hd : decode w with
  | ok i => exact .inl ⟨i, rfl, encode_decode hd, mem_opcodeTable.2 ⟨i, rfl⟩, fun _ => selects_iff_of_decode hd⟩
  | error e =>
    obtain ⟨c, rfl, -⟩ := inClass_of_decode hd
    refine .inr ⟨c, rfl, fun r hr => Bool.eq_false_iff.2 fun hsel => ?_⟩
    obtain ⟨i, hi⟩ := exists_decode_of_selects hr hsel
    exact absurd (hd.symm.trans hi) (by simp)

/-! ## The tick -/

/-- Settles O9: the tick ends at decode, and the words of the second clause are those of class `sys`. -/
theorem unknownOpcodeIsReported : Obligations.UnknownOpcodeIsReported := by
  refine ⟨fun p d s r hp hd => ?_, fun w hw h0 h1 h2 => ?_⟩
  · have hrun (run) : runTick run s = .fault (.unknownOpcode s.wordAtPc s.pc) := by
      simp only [runTick, fetch_eq, if_pos hp, hd]
    refine ⟨hrun exec, ?_⟩
    simp only [tick, hrun, afterError_eq, hp, true_and]
  · exact (unknownWordsAreTheSixClasses w).2 (.inl ⟨Nat.div_eq_of_lt hw, h0, h1, h2⟩)

/-! ## Words of the table -/

/-- Settles O1: each word is its instruction's encoding. -/
theorem wordsOfTheTableDecode : Obligations.WordsOfTheTableDecode :=
  ⟨decode_encode (i := .nop) rfl, decode_encode (i := .cls) rfl, decode_encode (i := .ret) rfl,
    decode_encode (i := .jp 0x2A0) rfl, decode_encode (i := .seByte 3 0x42) rfl, decode_encode (i := .seReg 1 2) rfl,
    decode_encode (i := .shr 0xA 0xB) rfl, decode_encode (i := .subn 0xA 0xB) rfl, decode_encode (i := .ldI 0x2F0) rfl,
    decode_encode (i := .drw 1 2 5) rfl, decode_encode (i := .skp 5) rfl, decode_encode (i := .ldLoad 5) rfl⟩

end Sys2Proof.Proofs
end

section
/-! The statements of 30_encoding.md on the adopted assembler lines (R116 to R118): every line of an instruction assembles to it, and no other line assembles. -/

namespace Sys2Proof.Proofs

open Sys2Proof Sys2Proof.Machine Sys2Proof.Config

/-! ## Operands in range -/

theorem asmReg_eq_some {n : Nat} {x : Reg} : asmReg n = some x ↔ n = x.val := by
  constructor
  · intro h
    obtain ⟨hn, heq⟩ := Option.dite_none_right_eq_some.1 h
    cases heq
    rfl
  · rintro rfl
    exact dif_pos x.isLt

@[simp] theorem asmReg_val (x : Reg) : asmReg x.val = some x := asmReg_eq_some.2 rfl

theorem asmByte_eq_some {n : Nat} {nn : Byte} : asmByte n = some nn ↔ n = nn.toNat := by
  constructor
  · intro h
    obtain ⟨hn, heq⟩ := Option.ite_none_right_eq_some.1 h
    obtain rfl := Option.some.inj heq
    exact (Nat.mod_eq_of_lt hn).symm
  · rintro rfl
    simp [asmByte, nn.isLt]

@[simp] theorem asmByte_toNat (nn : Byte) : asmByte nn.toNat = some nn := asmByte_eq_some.2 rfl

theorem asmAddr_eq_some {n : Nat} {addr : Word} : asmAddr n = some addr ↔ n = addr.toNat ∧ addrOk addr = true := by
  constructor
  · intro h
    obtain ⟨hn, heq⟩ := Option.ite_none_right_eq_some.1 h
    obtain rfl := Option.some.inj heq
    have hval : n = (BitVec.ofNat 16 n).toNat := (Nat.mod_eq_of_lt (by omega)).symm
    exact ⟨hval, decide_eq_true (hval ▸ hn)⟩
  · rintro ⟨rfl, h⟩
    simp_all [asmAddr, addrOk]

theorem asmNibble_eq_some {n k : Nat} : asmNibble n = some k ↔ n = k ∧ rowsOk k = true := by
  simp only [asmNibble, rowsOk, Option.ite_none_right_eq_some, Option.some.injEq, decide_eq_true_eq]
  constructor
  · rintro ⟨hn, rfl⟩
    exact ⟨rfl, hn⟩
  · rintro ⟨rfl, hn⟩
    exact ⟨hn, rfl⟩

/-! ## Operand forms -/

theorem asmX_eq_some {make : Reg → Instr} {a : Nat} {i : Instr} :
    asmX make a = some i ↔ ∃ x : Reg, a = x.val ∧ make x = i := by
  simp only [asmX, Option.map_eq_some_iff, asmReg_eq_some]

theorem asmNnn_eq_some {make : Word → Instr} {a : Nat} {i : Instr} :
    asmNnn make a = some i ↔ ∃ addr : Word, (a = addr.toNat ∧ addrOk addr = true) ∧ make addr = i := by
  simp only [asmNnn, Option.map_eq_some_iff, asmAddr_eq_some]

theorem asmXnn_eq_some {make : Reg → Byte → Instr} {a b : Nat} {i : Instr} :
    asmXnn make a b = some i ↔ ∃ (x : Reg) (nn : Byte), a = x.val ∧ b = nn.toNat ∧ make x nn = i := by
  constructor
  · intro h
    unfold asmXnn at h
    split at h <;> cases h
    next x nn hx hnn => exact ⟨x, nn, asmReg_eq_some.1 hx, asmByte_eq_some.1 hnn, rfl⟩
  · rintro ⟨x, nn, rfl, rfl, rfl⟩
    simp only [asmXnn, asmReg_val, asmByte_toNat]

theorem asmXy_eq_some {make : Reg → Reg → Instr} {a b : Nat} {i : Instr} :
    asmXy make a b = some i ↔ ∃ x y : Reg, a = x.val ∧ b = y.val ∧ make x y = i := by
  constructor
  · intro h
    unfold asmXy at h
    split at h <;> cases h
    next x y hx hy => exact ⟨x, y, asmReg_eq_some.1 hx, asmReg_eq_some.1 hy, rfl⟩
  · rintro ⟨x, y, rfl, rfl, rfl⟩
    simp only [asmXy, asmReg_val]

/-! ## The line of an instruction assembles to it -/

theorem assemble_asmLine {i : Instr} (h : i.wellFormed = true) :
    assemble (asmLine i).1 (asmLine i).2 = some i := by
  cases i with
  | nop | cls | ret => rfl
  | jp addr | call addr | ldI addr | jpV0 addr => exact asmNnn_eq_some.2 ⟨addr, ⟨rfl, h⟩, rfl⟩
  | seByte x nn | sneByte x nn | ldByte x nn | addByte x nn | rnd x nn =>
    exact asmXnn_eq_some.2 ⟨x, nn, rfl, rfl, rfl⟩
  | drw x y n =>
    have hn : asmNibble n = some n := asmNibble_eq_some.2 ⟨rfl, h⟩
    simp only [asmLine, assemble, asmReg_val, hn]
  | seReg x y | sneReg x y | ldReg x y | or x y | and x y | xor x y | addReg x y | sub x y | shr x y | subn x y
  | shl x y =>
    exact asmXy_eq_some.2 ⟨x, y, rfl, rfl, rfl⟩
  | skp x | sknp x | ldVxDt x | ldVxK x | ldDt x | ldSt x | addI x | ldF x | ldB x | ldStore x | ldLoad x =>
    exact asmX_eq_some.2 ⟨x, rfl, rfl⟩

/-! ## Nothing else assembles -/

/-- The line spells the instruction out, every operand at its own value, or is SHR or SHL with Vy omitted (30_encoding.md R117). -/
def Spells (m : Mnemonic) (ops : List AsmOperand) (i : Instr) : Prop :=
  i.wellFormed = true ∧
    ((m, ops) = asmLine i ∨
      ∃ x : Reg, ops = [.v x] ∧ ((m = .shr ∧ i = .shr x 0) ∨ (m = .shl ∧ i = .shl x 0)))

theorem assembleXy_some {make : Reg → Reg → Instr} {ops : List AsmOperand} {i : Instr}
    (h : assembleXy make ops = some i) : ∃ x y : Reg, ops = [.v x, .v y] ∧ i = make x y := by
  unfold assembleXy at h
  split at h <;> try cases h
  obtain ⟨x, y, rfl, rfl, rfl⟩ := asmXy_eq_some.1 h
  exact ⟨x, y, rfl, rfl⟩

theorem assembleShift_some {make : Reg → Reg → Instr} {ops : List AsmOperand} {i : Instr}
    (h : assembleShift make ops = some i) :
    (∃ x : Reg, ops = [.v x] ∧ i = make x 0) ∨ ∃ x y : Reg, ops = [.v x, .v y] ∧ i = make x y := by
  unfold assembleShift at h
  split at h
  case h_1 =>
    obtain ⟨x, y, rfl, hy, rfl⟩ := asmXy_eq_some.1 h
    obtain rfl : 0 = y := Fin.ext hy
    exact .inl ⟨x, rfl, rfl⟩
  case h_2 =>
    obtain ⟨x, y, rfl, rfl, rfl⟩ := asmXy_eq_some.1 h
    exact .inr ⟨x, y, rfl, rfl⟩
  case h_3 => cases h

theorem assembleSkip_some {makeByte : Reg → Byte → Instr} {makeReg : Reg → Reg → Instr} {ops : List AsmOperand}
    {i : Instr} (h : assembleSkip makeByte makeReg ops = some i) :
    (∃ (x : Reg) (nn : Byte), ops = [.v x, .num nn.toNat] ∧ i = makeByte x nn) ∨
      ∃ x y : Reg, ops = [.v x, .v y] ∧ i = makeReg x y := by
  unfold assembleSkip at h
  split at h
  case h_1 =>
    obtain ⟨x, nn, rfl, rfl, rfl⟩ := asmXnn_eq_some.1 h
    exact .inl ⟨x, nn, rfl, rfl⟩
  case h_2 =>
    obtain ⟨x, y, rfl, rfl, rfl⟩ := asmXy_eq_some.1 h
    exact .inr ⟨x, y, rfl, rfl⟩
  case h_3 => cases h

/-- What a line of LD assembles to is spelled out by it. -/
theorem assembleLd_spells {ops : List AsmOperand} {i : Instr} (h : assembleLd ops = some i) : Spells .ld ops i := by
  unfold assembleLd at h
  split at h
  case h_1 =>
    obtain ⟨x, nn, rfl, rfl, rfl⟩ := asmXnn_eq_some.1 h
    exact ⟨rfl, .inl rfl⟩
  case h_2 =>
    obtain ⟨x, y, rfl, rfl, rfl⟩ := asmXy_eq_some.1 h
    exact ⟨rfl, .inl rfl⟩
  case h_3 =>
    obtain ⟨addr, ⟨rfl, ha⟩, rfl⟩ := asmNnn_eq_some.1 h
    exact ⟨ha, .inl rfl⟩
  case h_12 => cases h
  all_goals
    obtain ⟨x, rfl, rfl⟩ := asmX_eq_some.1 h
    exact ⟨rfl, .inl rfl⟩

/-- What a line assembles to is spelled out by it (30_encoding.md R116, R117). -/
theorem assemble_spells {m : Mnemonic} {ops : List AsmOperand} {i : Instr} (h : assemble m ops = some i) :
    Spells m ops i := by
  cases m with
  | nop | cls | ret =>
    obtain ⟨rfl, heq⟩ := Option.ite_none_right_eq_some.1 h
    cases heq
    exact ⟨rfl, .inl rfl⟩
  | ld => exact assembleLd_spells h
  | or | and | xor | sub | subn =>
    obtain ⟨x, y, rfl, rfl⟩ := assembleXy_some h
    exact ⟨rfl, .inl rfl⟩
  | shr =>
    obtain ⟨x, rfl, rfl⟩ | ⟨x, y, rfl, rfl⟩ := assembleShift_some h
    · exact ⟨rfl, .inr ⟨x, rfl, .inl ⟨rfl, rfl⟩⟩⟩
    · exact ⟨rfl, .inl rfl⟩
  | shl =>
    obtain ⟨x, rfl, rfl⟩ | ⟨x, y, rfl, rfl⟩ := assembleShift_some h
    · exact ⟨rfl, .inr ⟨x, rfl, .inr ⟨rfl, rfl⟩⟩⟩
    · exact ⟨rfl, .inl rfl⟩
  | se | sne =>
    obtain ⟨x, nn, rfl, rfl⟩ | ⟨x, y, rfl, rfl⟩ := assembleSkip_some h
    · exact ⟨rfl, .inl rfl⟩
    · exact ⟨rfl, .inl rfl⟩
  | jp =>
    simp only [assemble] at h
    split at h
    case h_3 => cases h
    all_goals
      obtain ⟨addr, ⟨rfl, ha⟩, rfl⟩ := asmNnn_eq_some.1 h
      exact ⟨ha, .inl rfl⟩
  | call =>
    simp only [assemble] at h
    split at h
    · obtain ⟨addr, ⟨rfl, ha⟩, rfl⟩ := asmNnn_eq_some.1 h
      exact ⟨ha, .inl rfl⟩
    · cases h
  | add =>
    simp only [assemble] at h
    split at h
    · obtain ⟨x, nn, rfl, rfl, rfl⟩ := asmXnn_eq_some.1 h
      exact ⟨rfl, .inl rfl⟩
    · obtain ⟨x, y, rfl, rfl, rfl⟩ := asmXy_eq_some.1 h
      exact ⟨rfl, .inl rfl⟩
    · obtain ⟨x, rfl, rfl⟩ := asmX_eq_some.1 h
      exact ⟨rfl, .inl rfl⟩
    · cases h
  | rnd =>
    simp only [assemble] at h
    split at h
    · obtain ⟨x, nn, rfl, rfl, rfl⟩ := asmXnn_eq_some.1 h
      exact ⟨rfl, .inl rfl⟩
    · cases h
  | drw =>
    simp only [assemble] at h
    repeat' split at h
    all_goals cases h
    next hx hy hn =>
      obtain rfl := asmReg_eq_some.1 hx
      obtain rfl := asmReg_eq_some.1 hy
      obtain ⟨rfl, hrows⟩ := asmNibble_eq_some.1 hn
      exact ⟨hrows, .inl rfl⟩
  | skp | sknp =>
    simp only [assemble] at h
    split at h
    · obtain ⟨x, rfl, rfl⟩ := asmX_eq_some.1 h
      exact ⟨rfl, .inl rfl⟩
    · cases h

/-- Settles O6: each operand form assembles just the values its field holds, so a line read back is the line written. -/
theorem assemblerLinesRoundTrip : Obligations.AssemblerLinesRoundTrip := by
  refine ⟨fun i hi => ?_, fun x => ?_, fun m ops i h => assemble_spells h⟩
  · have h := assemble_asmLine hi
    exact ⟨h, congrArg (Option.map encode) h⟩
  · exact ⟨asmXy_eq_some.2 ⟨x, 0, rfl, rfl, rfl⟩, asmXy_eq_some.2 ⟨x, 0, rfl, rfl, rfl⟩⟩

end Sys2Proof.Proofs
end

section
/-! The statements of 40_interface_fetch_decode.md: what a step and a tick run, which draws they read, that no allowed tick is refused, and what every operation of the host keeps. -/

namespace Sys2Proof.Proofs

open Sys2Proof Sys2Proof.Machine Sys2Proof.Config

/-! ## The pressed keys and the key draw -/

theorem length_pressedKeys_lt_two_iff {s : State} :
    s.pressedKeys.length < 2 ↔ ∀ j k, s.pressed j = true → s.pressed k = true → j = k := by
  refine ⟨fun h j k hj hk => ?_, fun h => ?_⟩
  · rw [← mem_pressedKeys] at hj hk
    match hp : s.pressedKeys with
    | [] => simp [hp] at hj
    | [a] =>
      rw [hp, List.mem_singleton] at hj hk
      exact hj.trans hk.symm
    | _ :: _ :: _ => simp [hp] at h
  · obtain hnil | ⟨k, hone⟩ := pressedKeys_of_unique h
    · simp [hnil]
    · simp [hone]

theorem pressedKeys_ne_nil {s : State} {k : Reg} (h : s.pressed k = true) : s.pressedKeys ≠ [] :=
  List.ne_nil_of_mem (mem_pressedKeys.2 h)

/-! ## FX0A with the key draw given -/

/-- With no key pressed the draw is not read: FX0A blocks as it does under `exec` (45_timers_keys.md R284). -/
theorem execWith_ldVxK_blocked {s : State} (d : Draws) (x : Reg) (h : s.pressedKeys = []) :
    execWith d (.ldVxK x) s = exec (.ldVxK x) s := by
  change _ = execLdVxK x s
  simp [execWith, execLdVxK_blocked x h, h, State.waitKey, State.setPc, State.setAwait]

/-- A pressed key draw is the key reported (40_interface_fetch_decode.md R142). -/
theorem execWith_ldVxK_pressed {s : State} {d : Draws} (x : Reg) (h : s.pressed d.kp = true) :
    execWith d (.ldVxK x) s = .next ((s.setReg x (BitVec.ofNat 8 d.kp.val)).setAwait false) := by
  simp [execWith, h, keyOfDraw_eq h, State.waitKey, pressedKeys_ne_nil h]

/-- With fewer than two keys pressed the draw is not read (40_interface_fetch_decode.md R142). -/
theorem execWith_ldVxK_of_few {s : State} (d : Draws) (x : Reg) (h : s.pressedKeys.length < 2) :
    execWith d (.ldVxK x) s = exec (.ldVxK x) s := by
  obtain hnil | ⟨k, hone⟩ := pressedKeys_of_unique (length_pressedKeys_lt_two_iff.1 h)
  · exact execWith_ldVxK_blocked d x hnil
  · change _ = execLdVxK x s
    simp [execWith, execLdVxK, State.afterKeyDraw, State.freeKey, State.keyOfDraw, hone]

theorem execWith_ldVxK_refused {s : State} {d : Draws} (x : Reg) (h : 2 ≤ s.pressedKeys.length)
    (hd : s.pressed d.kp = false) : execWith d (.ldVxK x) s = .refused (.keyDrawNotPressed d.kp) :=
  if_pos ⟨h, hd⟩

/-- A key index fits in a byte (10_state.md R40). -/
theorem toNat_keyByte (k : Reg) : (BitVec.ofNat 8 k.val).toNat = k.val := by
  have := k.isLt
  rw [BitVec.toNat_ofNat]
  omega

/-- Settles O37: a pressed draw is the one reported, fewer than two pressed keys leave no choice, and any other draw is refused. -/
theorem everyPressedKeyCanBeReported : Obligations.EveryPressedKeyCanBeReported := by
  intro x d s
  refine ⟨fun hkp => ?_, fun huniq => ?_, fun hkp ⟨j, k, hne, hj, hk⟩ => ?_⟩
  · refine ⟨_, execWith_ldVxK_pressed x hkp, ?_, rfl, fun q hq => ?_, rfl⟩
    · rw [State.setAwait_reg, State.reg_setReg_same, toNat_keyByte]
    · rw [State.setAwait_reg, State.reg_setReg_ne s _ hq]
  · exact execWith_ldVxK_of_few d x (length_pressedKeys_lt_two_iff.2 huniq)
  · refine execWith_ldVxK_refused x (not_lt.1 fun hfew => ?_) hkp
    exact hne (length_pressedKeys_lt_two_iff.1 hfew j k hj hk)

/-! ## Any draws against the free draws -/

/-- Two instructions read a draw; the others are `exec` whatever the draws (40_interface_fetch_decode.md R142). -/
theorem execWith_cases (d : Draws) (i : Instr) (s : State) :
    (∃ x nn, i = .rnd x nn) ∨ (∃ x, i = .ldVxK x) ∨ execWith d i s = exec i s := by
  cases i with
  | rnd x nn => exact .inl ⟨x, nn, rfl⟩
  | ldVxK x => exact .inr (.inl ⟨x, rfl⟩)
  | _ => exact .inr (.inr rfl)

/-- Which key a wait reports shows in the registers alone (45_timers_keys.md R284). -/
theorem waitKey_eq_of_afterKeyDraw (s : State) (x k j : Reg) :
    s.waitKey x k = { s.afterKeyDraw.waitKey x j with v := (s.waitKey x k).v, draws := (s.waitKey x k).draws } := by
  have hkeys : s.afterKeyDraw.pressedKeys = s.pressedKeys := by
    rw [State.afterKeyDraw_eq]
    rfl
  unfold State.waitKey
  rw [hkeys, State.afterKeyDraw_eq]
  split <;> rfl

/-- Draws reach the registers alone: what an instruction does with them given is what `exec` does with the free draws, but for the registers and the model's own draw index (10_state.md R45; 40_interface_fetch_decode.md R158). -/
theorem execWith_next {d : Draws} {i : Instr} {s t : State} (h : execWith d i s = .next t) :
    ∃ u, exec i s = .next u ∧ t = { u with v := t.v, draws := t.draws } := by
  obtain ⟨x, nn, rfl⟩ | ⟨x, rfl⟩ | heq := execWith_cases d i s
  · cases h
    exact ⟨_, rfl, rfl⟩
  · simp only [execWith] at h
    split at h
    · cases h
    · cases h
      exact ⟨_, rfl, waitKey_eq_of_afterKeyDraw s x _ _⟩
  · exact ⟨t, heq.symm.trans h, rfl⟩

/-! ## What is refused -/

/-- Every instruction has a meaning, and it ends in a next state or an error (40_interface_fetch_decode.md R155; 60_exceptions.md R311). -/
theorem exec_ne_refused (i : Instr) (s : State) (r : Refusal) : exec i s ≠ .refused r := by
  cases i with
  | ret | call | drw | skp | sknp | ldB | ldStore | ldLoad =>
    simp only [exec, execRet, execCall, execDrw, execSkp, execSknp, execLdB, execLdStore, execLdLoad]
    split <;> nofun
  | _ => exact nofun

/-- The one refusal of a tick: FX0A met two or more pressed keys and a key draw that is none of them (40_interface_fetch_decode.md R142). -/
theorem execWith_refused {d : Draws} {i : Instr} {s : State} {r : Refusal} (h : execWith d i s = .refused r) :
    (∃ x, i = .ldVxK x) ∧ 2 ≤ s.pressedKeys.length ∧ s.pressed d.kp = false := by
  obtain ⟨x, nn, rfl⟩ | ⟨x, rfl⟩ | heq := execWith_cases d i s
  · cases h
  · simp only [execWith] at h
    split at h
    · next hbad => exact ⟨⟨x, rfl⟩, hbad⟩
    · cases h
  · exact absurd (heq.symm.trans h) (exec_ne_refused i s r)

/-- A tick itself refuses nothing: a refusal is that of the decoded instruction's rule. -/
theorem runTick_refused {run : Instr → State → Host.Outcome State Fault Refusal} {s : State} {r : Refusal}
    (h : runTick run s = .refused r) :
    ∃ i, decode s.wordAtPc = .ok i ∧ run i ((s.setPc (s.pc + 2)).setAwait false) = .refused r := by
  obtain ⟨_, -, -, -, hrun⟩ | ⟨-, -, ⟨_, -, hrun⟩ | ⟨i, hd, hrun⟩⟩ := runTick_cases run s
  · cases hrun.symm.trans h
  · cases hrun.symm.trans h
  · exact ⟨i, hd, hrun.symm.trans h⟩

/-- What a tick gives: the next state of its run, the error of its run with the state of 60_exceptions.md R316, or the refusal of its run. -/
theorem tick_of_next {p : ErrCommitPc} {d : Draws} {s t : State} (h : runTick (execWith d) s = .next t) :
    tick p d s = .ok (if t.await then .waiting else .ok, t) := by
  simp only [tick, h]

theorem tick_of_fault {p : ErrCommitPc} {d : Draws} {s : State} {e : Fault} (h : runTick (execWith d) s = .fault e) :
    tick p d s = .ok (.error e, afterError p s) := by
  simp only [tick, h]

theorem tick_of_refused {p : ErrCommitPc} {d : Draws} {s : State} {r : Refusal}
    (h : runTick (execWith d) s = .refused r) : tick p d s = .error r := by
  simp only [tick, h]

/-- Settles O48: only `execWith` refuses, for a word FX0A and a key draw that the constraint of R142 rules out. -/
theorem nothingIsRefused : Obligations.NothingIsRefused := by
  refine ⟨exec_ne_refused, fun s r h => ?_, fun p d s hdraw => ?_⟩
  · obtain ⟨i, -, hrun⟩ := runTick_refused h
    exact exec_ne_refused i _ r hrun
  · cases hrun : runTick (execWith d) s with
    | next t => exact ⟨_, _, tick_of_next hrun⟩
    | fault e => exact ⟨_, _, tick_of_fault hrun⟩
    | refused r =>
      exfalso
      obtain ⟨i, hd, hi⟩ := runTick_refused hrun
      obtain ⟨⟨x, rfl⟩, htwo, hkp⟩ := execWith_refused hi
      obtain hpressed | huniq | hword := hdraw
      · exact absurd (hkp.symm.trans hpressed) (by decide)
      · exact absurd (length_pressedKeys_lt_two_iff.2 huniq) (not_lt.2 htwo)
      · exact hword x hd

/-! ## A tick runs the decoded instruction -/

/-- Settles O7: the fetch succeeds below 4095 and the word decodes. -/
theorem stepRunsTheDecodedInstruction : Obligations.StepRunsTheDecodedInstruction :=
  fun _ _ hp hd => runTick_decoded hp hd

/-- Settles O56: the tick's run is that of the decoded instruction, and its end is the tick's. -/
theorem tickRunsTheDecodedInstruction : Obligations.TickRunsTheDecodedInstruction := by
  refine ⟨fun p d s i hp hd => ?_, fun d i s hrnd hkey => execWith_eq hrnd hkey⟩
  have hrun : runTick (execWith d) s = execWith d i { s with pc := s.pc + 2, await := false } := runTick_decoded hp hd
  cases hi : execWith d i { s with pc := s.pc + 2, await := false } with
  | next t => exact tick_of_next (hrun.trans hi)
  | fault e =>
    rw [tick_of_fault (hrun.trans hi), afterError_eq]
    simp only [hp, true_and]
  | refused r => exact tick_of_refused (hrun.trans hi)

/-- Settles O8: the fetch fails, so the run ends before any decode and the error leaves pc. -/
theorem fetchOutsideMemoryReportsOutOfBounds : Obligations.FetchOutsideMemoryReportsOutOfBounds := by
  intro p d s hp e
  have hp' : ¬ s.pc.toNat < 4095 := not_lt.2 hp
  have haddr : max s.pc.toNat 4096 = if s.pc.toNat = 4095 then 4096 else s.pc.toNat := by
    split <;> omega
  have hrun (run) : runTick run s = .fault e := by
    simp only [runTick, fetch_eq, if_neg hp', haddr, e]
  refine ⟨hrun exec, ?_⟩
  rw [tick_of_fault (hrun _), afterError_eq]
  simp only [hp', false_and, if_false]

/-! ## A step is a tick for the free draws -/

/-- The draws a step takes from the free values (log entries 3 and 4). -/
def freeDraws (s : State) : Draws := ⟨rng s.draws, s.freeKey⟩

/-- With the free draws given, an instruction does what `exec` does, but reads no free draw. -/
theorem execWith_freeDraws_next {i : Instr} {s t : State} (h : exec i s = .next t) :
    execWith (freeDraws s) i s = .next { t with draws := s.draws } := by
  cases i with
  | rnd x nn =>
    cases h
    rfl
  | ldVxK x =>
    obtain ⟨hk, rfl⟩ | ⟨hk, rfl⟩ := exec_next h
    · exact (execWith_ldVxK_blocked _ x hk).trans h
    · exact execWith_ldVxK_pressed x (freeKey_pressed hk)
  | _ =>
    have hdraws : t.draws = s.draws := by
      have hf := exec_footprint h
      simp only [Footprint] at hf
      rw [hf]
    rw [← hdraws]
    exact h

/-- The instructions that read a draw report no error (60_exceptions.md R311). -/
theorem execWith_fault {i : Instr} {s : State} {e : Fault} (d : Draws) (h : exec i s = .fault e) :
    execWith d i s = .fault e := by
  obtain ⟨x, nn, rfl⟩ | ⟨x, rfl⟩ | heq := execWith_cases d i s
  · cases h
  · cases h
  · exact heq.trans h

/-- Settles O55: the draws are the free ones of the state after the fetch, which are those of the state before it. -/
theorem stepIsATickForSomeDraws : Obligations.StepIsATickForSomeDraws := by
  intro p s
  refine ⟨freeDraws ((s.setPc (s.pc + 2)).setAwait false), fun t h => ?_, fun e h => ⟨afterError p s, tick_of_fault ?_⟩⟩
  · obtain ⟨i, hp, hd, hrun⟩ := runTick_next h
    exact tick_of_next ((runTick_decoded hp hd).trans (execWith_freeDraws_next hrun))
  · obtain ⟨_, hf, -, -, hrun⟩ | ⟨hp, -, ⟨r, hd, hrun⟩ | ⟨i, hd, hrun⟩⟩ := runTick_cases exec s
    · cases hrun.symm.trans h
      simp only [runTick, hf]
    · cases hrun.symm.trans h
      simp only [runTick, fetch_eq, if_pos hp, hd]
    · exact (runTick_decoded hp hd).trans (execWith_fault _ (hrun.symm.trans h))

/-! ## What every operation of the host keeps -/

/-- The invariant of a CORE made with a FONT: the state is legal and bytes 0 to 79 are FONT (20_memory.md R73, R81). -/
structure HoldsFont (font : Font) (s : State) : Prop where
  inv : s.Inv
  font : ∀ a : Fin 80, s.mem.read a.val = font[a.val]

/-- A program never writes the font region (20_memory.md R73; 60_exceptions.md R322). -/
theorem exec_keeps_fontRegion {i : Instr} {s t : State} (hmem : s.mem.wf) (h : exec i s = .next t) {a : Nat}
    (ha : a < 80) : t.mem.read a = s.mem.read a := by
  obtain hsame | ⟨bs, hlow, hend, hstore⟩ := exec_mem_cases h
  · rw [hsame]
  · rw [hstore, Memory.read_store_outside hmem hend (.inl (by omega))]

/-- An instruction's rule with any draws keeps the invariant and the FONT in the states a fetch can leave, since `exec` does and the draws reach neither memory, pc nor the stack. -/
theorem execWith_keeps_holdsFont {font : Font} {d : Draws} {i : Instr} {s t : State} (hi : i.wellFormed = true)
    (hs : HoldsFont font s) (hlo : 2 ≤ s.pc.toNat) (hhi : s.pc.toNat ≤ 0x1000) (h : execWith d i s = .next t) :
    HoldsFont font t := by
  obtain ⟨u, hu, ht⟩ := execWith_next h
  have hinv := exec_keeps_inv hi hs.inv hlo hhi hu
  rw [ht]
  exact ⟨⟨hinv.memWf, hinv.pcBounded, hinv.stackBounded⟩,
    fun a => (exec_keeps_fontRegion hs.inv.memWf hu a.isLt).trans (hs.font a)⟩

/-- An error leaves memory and the stack, and pc moves at most past the word that was fetched (60_exceptions.md R316). -/
theorem afterError_keeps_holdsFont {font : Font} (p : ErrCommitPc) {s : State} (hs : HoldsFont font s) :
    HoldsFont font (afterError p s) := by
  rw [afterError_eq]
  refine ⟨⟨hs.inv.memWf, ?_, hs.inv.stackBounded⟩, hs.font⟩
  have hpc := hs.inv.pcBounded
  simp only [State.pcBounded] at hpc ⊢
  split
  · bv_omega
  · exact hpc

theorem tick_keeps_holdsFont {font : Font} {p : ErrCommitPc} {d : Draws} {r : TickResult} {s t : State}
    (hs : HoldsFont font s) (h : tick p d s = .ok (r, t)) : HoldsFont font t := by
  cases hrun : runTick (execWith d) s with
  | next u =>
    cases (tick_of_next hrun).symm.trans h
    obtain ⟨i, hp, hd, hi⟩ := runTick_next hrun
    have hpc := toNat_pc_afterFetch hp
    exact execWith_keeps_holdsFont (decode_wellFormed hd) ⟨inv_afterFetch hs.inv hp, hs.font⟩ (by omega) (by omega) hi
  | fault e =>
    cases (tick_of_fault hrun).symm.trans h
    exact afterError_keeps_holdsFont p hs
  | refused e => cases (tick_of_refused hrun).symm.trans h

/-- `new()` gives the invariant and the FONT (70_reset_and_hazards.md R340). -/
theorem newCore_holdsFont (font : Font) : HoldsFont font (newCore font) where
  inv := ⟨State.resetWith_memWf font, show (0x200 : Word).toNat ≤ 0x10FE by decide, fun k hk => absurd hk (Nat.not_lt_zero k.val)⟩
  font a := (resetWith_read font a).trans (dif_pos a.isLt)

/-- `reset()` differs from `new()` in the model's own draw index alone (70_reset_and_hazards.md R341). -/
theorem hostReset_holdsFont (font : Font) (s : State) : HoldsFont font (hostReset font s) := by
  obtain ⟨⟨hmem, hpc, hstack⟩, hfont⟩ := newCore_holdsFont font
  exact ⟨⟨hmem, hpc, hstack⟩, hfont⟩

/-- `load` writes from 0x200 on, within memory (70_reset_and_hazards.md R343, R344). -/
theorem load_keeps_holdsFont {font : Font} {bytes : List Byte} {s t : State} (hs : HoldsFont font s)
    (h : load bytes s = .ok t) : HoldsFont font t := by
  obtain ⟨⟨hmem, hpc, hstack⟩, hfont⟩ := hs
  unfold load at h
  split at h
  next hlen =>
    cases h
    have hend : 0x200 + bytes.length ≤ 4096 := by
      simp only [maxLoad] at hlen
      omega
    exact ⟨⟨Memory.wf_store hmem hend, hpc, hstack⟩,
      fun a => (Memory.read_store_outside hmem hend (.inl (by omega))).trans (hfont a)⟩
  · cases h

/-- `set_key` writes the keypad alone (45_timers_keys.md R295). -/
theorem setKey_keeps_holdsFont {font : Font} {index : Nat} {pressed : Bool} {s t : State} (hs : HoldsFont font s)
    (h : setKey index pressed s = .ok t) : HoldsFont font t := by
  obtain ⟨⟨hmem, hpc, hstack⟩, hfont⟩ := hs
  unfold setKey at h
  split at h
  · cases h
    exact ⟨⟨hmem, hpc, hstack⟩, hfont⟩
  · cases h

/-- `tick_timers()` writes the timers alone (45_timers_keys.md R290). -/
theorem tickTimers_keeps_holdsFont {font : Font} {s : State} (hs : HoldsFont font s) :
    HoldsFont font (tickTimers s).2 := by
  obtain ⟨⟨hmem, hpc, hstack⟩, hfont⟩ := hs
  exact ⟨⟨hmem, hpc, hstack⟩, hfont⟩

theorem hostStep_keeps_holdsFont {p : Params} {o : HostOp} {reply : HostReply} {s t : State}
    (hs : HoldsFont p.font s) (h : hostStep p o s = .ok (reply, t)) : HoldsFont p.font t := by
  cases o with
  | reset =>
    cases h
    exact hostReset_holdsFont p.font s
  | load bytes =>
    simp only [hostStep] at h
    split at h
    next u hu =>
      cases h
      exact load_keeps_holdsFont hs hu
    · cases h
  | tick d =>
    simp only [hostStep] at h
    split at h
    next r u hu =>
      cases h
      exact tick_keeps_holdsFont hs hu
    · cases h
  | tickTimers =>
    cases h
    exact tickTimers_keeps_holdsFont hs
  | setKey index pressed =>
    simp only [hostStep] at h
    split at h
    next u hu =>
      cases h
      exact setKey_keeps_holdsFont hs hu
    · cases h
  | getDisplay | readStatus =>
    cases h
    exact hs

/-- Settles O57: one lemma for each operation, the tick's by the bounds of the fetch and the write checks of the instructions. -/
theorem hostStepKeepsInvariantAndFont : Obligations.HostStepKeepsInvariantAndFont := by
  intro p o reply s t hinv hfont h
  obtain ⟨hinv', hfont'⟩ := hostStep_keeps_holdsFont ⟨hinv, hfont⟩ h
  exact ⟨hinv', hfont'⟩

theorem reachable_holdsFont {p : Params} {s : State} (h : Reachable p s) : HoldsFont p.font s := by
  induction h with
  | boot => exact newCore_holdsFont p.font
  | op _ _ hstep ih => exact hostStep_keeps_holdsFont ih hstep

/-- Settles O54: `new()` gives both and every operation keeps them. -/
theorem reachableStatesKeepInvariantAndFont : Obligations.ReachableStatesKeepInvariantAndFont := by
  intro p s h
  obtain ⟨hinv, hfont⟩ := reachable_holdsFont h
  exact ⟨hinv, hfont⟩

/-! ## The reads -/

@[simp] theorem length_getDisplay (s : State) : (getDisplay s).length = 2048 := by
  simp [getDisplay]

theorem getElem?_getDisplay (s : State) {p : Nat} (hp : p < 2048) : (getDisplay s)[p]? = some (s.fb.cell p) := by
  simp [getDisplay, hp]

/-- Settles O44: pixel (x, y) of the display is one of the 2048 cells. -/
theorem hostReadsGiveTheStateUnchanged : Obligations.HostReadsGiveTheStateUnchanged := by
  intro p s
  exact ⟨⟨_, rfl, length_getDisplay s, fun x hx y hy => getElem?_getDisplay s (by omega)⟩, rfl⟩

end Sys2Proof.Proofs
end

section
/-! The statements of 41_control.md: the no-op, the jumps, call and return, the skips on registers and bytes, and which instructions can move pc. -/

namespace Sys2Proof.Proofs

open Sys2Proof Sys2Proof.Machine Sys2Proof.Config

/-! ## Skips -/

/-- A skip answers a next state in which pc alone may differ, and says where it stands (41_control.md R183). -/
theorem skipIf_answers {s : State} {c : Bool} {w : Word} (hpc : (if c then s.pc + 2 else s.pc) = w) :
    ∃ t, (Host.Outcome.next (s.skipIf c) : Host.Outcome State Fault Refusal) = .next t ∧
      t = { s with pc := t.pc } ∧ (∀ a, t.mem.read a = s.mem.read a) ∧ t.pc = w := by
  rw [State.skipIf_eq, hpc]
  exact ⟨_, rfl, rfl, fun _ => rfl, rfl⟩

/-- Settles O14: each rule is one skip, and its condition on the bytes is the one on their values. -/
theorem registerSkipsAddTwo : Obligations.RegisterSkipsAddTwo := by
  intro x y nn s
  refine ⟨skipIf_answers ?_, skipIf_answers ?_, skipIf_answers ?_, skipIf_answers ?_⟩
  all_goals simp only [beq_iff_eq, bne_iff_ne, ne_eq, ite_not, BitVec.toNat_inj]

/-! ## Call and return -/

/-- Settles O15: the push writes the entry at the old depth and no other. -/
theorem callPushesReturnAddress : Obligations.CallPushesReturnAddress := by
  intro addr s _
  refine ⟨fun hsp => ⟨_, execCall_next addr hsp, rfl, rfl, fun k => ?_, rfl, fun _ => rfl⟩, execCall_fault addr⟩
  simp only [Vector.getElem_set, eq_comm]

/-- Settles O16: the pop reads the entry below the depth and writes none. -/
theorem returnPopsTopEntry : Obligations.ReturnPopsTopEntry := by
  refine fun s => ⟨fun hsp => ⟨_, execRet_next hsp.ne', Nat.sub_add_cancel hsp, fun k hk => ?_, rfl, fun _ => rfl⟩,
    execRet_fault⟩
  simp only [← hk, Nat.add_sub_cancel]

/-- Settles O17: the return pops the entry that the call pushed, so pc and the depth are as before, and the push left the entries below it alone. -/
theorem callThenReturnComesBack : Obligations.CallThenReturnComesBack := by
  intro addr s t h
  obtain ⟨hsp, ht⟩ := exec_next h
  have hdepth : t.sp.val = s.sp.val + 1 := by rw [ht]
  refine ⟨_, execRet_next (by omega), ?_, fun k hk => ?_⟩
  · simp [ht]
  · simp only [ht, Vector.getElem_set_ne hsp k.isLt hk.ne']

/-! ## Who moves pc -/

/-- Settles O18: where each rule can leave pc (`exec_pcEffect`), with the case that it stays ruled out. -/
theorem onlyControlInstructionsWritePc : Obligations.OnlyControlInstructionsWritePc := by
  intro i s t h hne
  have hpc := exec_pcEffect h
  cases i with
  | ret | jp | call | jpV0 => trivial
  | seByte | sneByte | seReg | sneReg | skp | sknp => exact hpc.resolve_left hne
  | ldVxK =>
    obtain ⟨hkeys, hback⟩ := hpc.resolve_left hne
    exact ⟨pressedKeys_eq_nil.1 hkeys, hback⟩
  | _ => exact hne hpc

/-! ## No-op and jumps -/

/-- Settles O11: the encoder gives NOP the one word 0x0000, which is the word of two zero bytes. -/
theorem nopOnlyAdvances : Obligations.NopOnlyAdvances := by
  have hword (w : Word) : decode w = .ok .nop ↔ w = 0x0000 :=
    ⟨fun h => (encode_decode h).symm, by rintro rfl; exact wordsOfTheTableDecode.1⟩
  refine ⟨hword, fun _ => rfl, fun s hp hhi hlo => ?_⟩
  have hd : decode s.wordAtPc = .ok .nop := by
    rw [hword, State.wordAtPc, hhi, hlo]
    rfl
  exact stepRunsTheDecodedInstruction s .nop hp hd

/-- Settles O12: the rule is one write of pc. -/
theorem jumpSetsPc : Obligations.JumpSetsPc :=
  fun addr s _ => ⟨s.setPc addr, rfl, rfl, rfl, fun _ => rfl⟩

/-- The sum of a byte and a 12-bit address fits 16 bits (41_control.md R192). -/
theorem toNat_offsetTarget (s : State) {addr : Word} (ha : addr.toNat < 0x1000) :
    (s.offsetTarget addr).toNat = (s.reg 0).toNat + addr.toNat := by
  have hv := (s.reg 0).isLt
  simp only [State.offsetTarget, zext16, BitVec.truncate_eq_setWidth, BitVec.toNat_add, BitVec.toNat_setWidth]
  omega

/-- Settles O13: the sum does not wrap, and its bound is that of a byte and a 12-bit address. -/
theorem jumpWithOffsetAddsV0 : Obligations.JumpWithOffsetAddsV0 := by
  intro addr s hi
  have ha : addr.toNat < 0x1000 := by simpa [Instr.wellFormed, addrOk] using hi
  have hv := (s.reg 0).isLt
  have hsum := toNat_offsetTarget s ha
  exact ⟨s.setPc (s.offsetTarget addr), rfl, hsum, by rw [State.setPc_pc, hsum]; omega, rfl, fun _ => rfl⟩

end Sys2Proof.Proofs
end

section
/-! The statements of 42_alu.md: VX as the ALU's result, VF as the flag that has the last word, the random byte, and the registers each instruction can change. -/

namespace Sys2Proof.Proofs

open Sys2Proof Sys2Proof.Machine

/-! ## A result in VX, with and without a flag -/

/-- An instruction that writes the byte r to VX and no flag changes VX alone (42_alu.md R211, R227). -/
theorem setReg_answers {i : Instr} {s : State} {x : Reg} {n : Nat} (r : Byte) (h : exec i s = .next (s.setReg x r))
    (hr : r.toNat = n) :
    ∃ t, exec i s = .next t ∧ (t.reg x).toNat = n ∧ (∀ q, q ≠ x → t.reg q = s.reg q) ∧
      t = { s with v := t.v } ∧ ∀ a, t.mem.read a = s.mem.read a :=
  ⟨_, h, by rw [State.reg_setReg_same, hr], fun _ hq => State.reg_setReg_ne s r hq, rfl, fun _ => rfl⟩

theorem reg_setFlag_ne (s : State) {q : Reg} (f : Bool) (h : q ≠ 15) : (s.setFlag f).reg q = s.reg q :=
  State.reg_setReg_ne s _ h

/-- An instruction that writes the byte r to VX and then a flag leaves r in VX unless X is 15, and the flag in VF always (42_alu.md R211, R212). -/
theorem setReg_setFlag_answers {i : Instr} {s : State} {x : Reg} {n : Nat} (r : Byte) (f : Bool)
    (h : exec i s = .next ((s.setReg x r).setFlag f)) (hr : r.toNat = n) :
    ∃ t, exec i s = .next t ∧ (x ≠ 15 → (t.reg x).toNat = n) ∧ t.reg 15 = flagByte f ∧
      (∀ q, q ≠ x → q ≠ 15 → t.reg q = s.reg q) ∧ t = { s with v := t.v } ∧ ∀ a, t.mem.read a = s.mem.read a := by
  refine ⟨_, h, fun hx => ?_, State.reg_setFlag_vf _ f, fun q hq hvf => ?_, rfl, fun _ => rfl⟩
  · rw [reg_setFlag_ne _ f hx, State.reg_setReg_same, hr]
  · rw [reg_setFlag_ne _ f hvf, State.reg_setReg_ne s r hq]

/-- Settles O19: each rule is one write of VX, and its result on bytes is the one on their values. -/
theorem flaglessAluWritesVxOnly : Obligations.FlaglessAluWritesVxOnly := by
  intro x y nn s writes
  exact ⟨setReg_answers nn rfl rfl,
    setReg_answers (s.reg x + nn) rfl (BitVec.toNat_add _ _),
    setReg_answers (s.reg y) rfl rfl,
    setReg_answers (s.reg x ||| s.reg y) rfl (BitVec.toNat_or _ _),
    setReg_answers (s.reg x &&& s.reg y) rfl (BitVec.toNat_and _ _),
    setReg_answers (s.reg x ^^^ s.reg y) rfl (BitVec.toNat_xor _ _)⟩

/-! ## A result in VX and its flag in VF -/

theorem flagByte_carryOut (a b : Byte) : flagByte (carryOut a b) = if 256 ≤ a.toNat + b.toNat then 1 else 0 := by
  simp [flagByte, carryOut]

/-- Settles O20: the controller writes the sum, then the carry. -/
theorem addSetsCarry : Obligations.AddSetsCarry := by
  intro x y s
  rw [← flagByte_carryOut]
  exact setReg_setFlag_answers (s.reg x + s.reg y) (carryOut (s.reg x) (s.reg y)) rfl (BitVec.toNat_add _ _)

theorem flagByte_noBorrow (a b : Byte) : flagByte (noBorrow a b) = if a.toNat < b.toNat then 0 else 1 := by
  by_cases h : a.toNat < b.toNat <;> simp [flagByte, noBorrow, h]

/-- A byte's difference modulo 256 (42_alu.md R210). -/
theorem toNat_byte_sub (a b : Byte) : (a - b).toNat = (a.toNat + 256 - b.toNat) % 256 := by
  have := b.isLt
  rw [BitVec.toNat_sub]
  omega

/-- Settles O21: the controller writes the difference, then "no borrow" of the same two operands. -/
theorem subtractionsSetNotBorrow : Obligations.SubtractionsSetNotBorrow := by
  intro x y s subtracts
  simp only [subtracts, ← flagByte_noBorrow]
  exact ⟨setReg_setFlag_answers (s.reg x - s.reg y) (noBorrow (s.reg x) (s.reg y)) rfl (toNat_byte_sub _ _),
    setReg_setFlag_answers (s.reg y - s.reg x) (noBorrow (s.reg y) (s.reg x)) rfl (toNat_byte_sub _ _)⟩

theorem toNat_flagByte (f : Bool) : (flagByte f).toNat = f.toNat := by cases f <;> rfl

/-- The bit that SHR shifts out is the remainder of the halving (42_alu.md R222). -/
theorem toNat_flagByte_lowBit (a : Byte) : (flagByte (a.getLsbD 0)).toNat = a.toNat % 2 := by
  rw [toNat_flagByte, BitVec.getLsbD, Nat.toNat_testBit, pow_zero, Nat.div_one]

/-- The bit that SHL shifts out is the carry of the doubling (42_alu.md R224). -/
theorem toNat_flagByte_highBit (a : Byte) : (flagByte (a.getLsbD 7)).toNat = a.toNat / 128 := by
  have := a.isLt
  rw [toNat_flagByte, BitVec.getLsbD, Nat.toNat_testBit]
  omega

theorem toNat_byte_shiftLeft_one (a : Byte) : (a <<< 1).toNat = a.toNat * 2 % 256 := by
  rw [BitVec.toNat_shiftLeft, Nat.shiftLeft_eq, pow_one]

/-- Settles O22: the controller writes the shifted byte, then the bit shifted out, and the ALU's shifts ignore their second operand. -/
theorem shiftsSetBitShiftedOut : Obligations.ShiftsSetBitShiftedOut := by
  intro x y s shifts
  simp only [shifts, ← toNat_flagByte_lowBit, ← toNat_flagByte_highBit, BitVec.toNat_inj]
  exact ⟨setReg_setFlag_answers (s.reg x >>> 1) ((s.reg x).getLsbD 0) rfl (BitVec.toNat_ushiftRight _ _),
    setReg_setFlag_answers (s.reg x <<< 1) ((s.reg x).getLsbD 7) rfl (toNat_byte_shiftLeft_one _), rfl, rfl⟩

/-! ## The random byte -/

/-- Settles O23: the two rules write the same register and differ in the byte and in the draw index. -/
theorem randomIsMaskedDraw : Obligations.RandomIsMaskedDraw := by
  intro x nn s
  have hsame (r : Byte) : (s.random r x nn).reg x = r &&& nn := State.reg_setReg_same s x _
  have hother (r : Byte) (q : Reg) (hq : q ≠ x) : (s.random r x nn).reg q = s.reg q := State.reg_setReg_ne s _ hq
  refine ⟨⟨_, rfl, hsame _, ?_, ?_, hother _, rfl, fun _ => rfl⟩, fun d => ⟨_, rfl, hsame _, hother _, rfl⟩⟩
  · rintro rfl
    exact (hsame _).trans BitVec.and_zero
  · rintro rfl
    exact (hsame _).trans BitVec.and_allOnes

/-! ## The registers an instruction can change -/

theorem eq_of_reg_setReg_ne {s : State} {x q : Reg} {b : Byte} (h : (s.setReg x b).reg q ≠ s.reg q) : q = x :=
  by_contra fun hq => h (State.reg_setReg_ne s b hq)

/-- The controller changes VX, and VF where the operation gives a flag (42_alu.md R211). -/
theorem eq_or_flag_of_reg_aluWrite_ne {s : State} {op : AluOp} {x q : Reg} {b : Byte}
    (h : (s.aluWrite op x b).reg q ≠ s.reg q) : q = x ∨ (q = vf ∧ (alu op (s.reg x) b).2 ≠ none) := by
  rw [reg_aluWrite] at h
  cases hflag : (alu op (s.reg x) b).2 with
  | none =>
    simp only [hflag] at h
    exact .inl (by_contra fun hx => h (if_neg hx))
  | some f =>
    by_cases hvf : q = vf
    · exact .inr ⟨hvf, nofun⟩
    · simp only [hflag, if_neg hvf] at h
      exact .inl (by_contra fun hx => h (if_neg hx))

/-- Settles O24: a register that differs is one that the instruction's update writes (`exec_next`), and the instructions with no register in their footprint leave all. -/
theorem onlyNamedRegistersChange : Obligations.OnlyNamedRegistersChange := by
  intro i s t q h hne
  have he := exec_next h
  cases i with
  | ldByte | rnd | ldVxDt =>
    obtain rfl := he
    exact .inl (eq_of_reg_setReg_ne hne)
  | addByte | ldReg | or | and | xor =>
    obtain rfl := he
    exact .inl ((eq_or_flag_of_reg_aluWrite_ne hne).resolve_right fun hf => hf.2 rfl)
  | addReg | sub | shr | subn | shl =>
    obtain rfl := he
    exact (eq_or_flag_of_reg_aluWrite_ne hne).imp_right fun hf => ⟨hf.1, trivial⟩
  | drw =>
    obtain ⟨-, rfl⟩ := he
    exact .inr ⟨eq_of_reg_setReg_ne hne, trivial⟩
  | ldVxK =>
    obtain ⟨-, rfl⟩ | ⟨-, rfl⟩ := he
    · exact absurd rfl hne
    · exact .inl (eq_of_reg_setReg_ne (s := s) hne)
  | ldLoad x =>
    obtain ⟨-, rfl⟩ := he
    rw [State.reg_loadRegs] at hne
    exact .inl (by_contra fun hgt => hne (if_neg hgt))
  | _ =>
    have hf := exec_footprint h
    simp only [Footprint] at hf
    rw [hf] at hne
    exact absurd rfl hne

end Sys2Proof.Proofs
end

section
/-! The statements of 43_index_memory.md: the writes of I, the digits and the registers stored at I, the registers loaded from I, and which address the checks report. -/

namespace Sys2Proof.Proofs

open Sys2Proof Sys2Proof.Machine

/-! ## Bytes stored at I -/

/-- Each stored byte is read back at its own address (20_memory.md R76, R86). -/
theorem read_store_add {m : Memory} {a j : Nat} {bs : List Byte} (hm : m.wf) (ha : a + bs.length ≤ 4096)
    (hj : j < bs.length) : (m.store a bs).read (a + j) = bs[j] := by
  rw [Memory.read_store hm ha, dif_pos (by omega)]
  simp only [Nat.add_sub_cancel_left]

/-- An instruction that checks the addresses I to I + k and then stores the k + 1 bytes of bs there does all of it or reports the first address that fails (43_index_memory.md R244, R245, R247). -/
theorem store_answers {i : Instr} {s : State} {bs : List Byte} {k : Nat} (hmem : s.mem.wf) (hlen : bs.length = k + 1)
    (hk : k < 16)
    (hexec : exec i s =
      if s.i.toNat < 80 then .fault (.readOnlyWrite s.i.toNat s.aIns)
      else if s.i.toNat + (k + 1) ≤ 4096 then .next (s.storeBytes s.i.toNat bs)
      else .fault (.outOfBounds (max s.i.toNat 4096) s.aIns)) :
    (80 ≤ s.i.toNat → s.i.toNat + k < 4096 →
      ∃ t, exec i s = .next t ∧ t = { s with mem := t.mem } ∧
        (∀ j (hj : j < bs.length), t.mem.read (s.i.toNat + j) = bs[j]) ∧
        ∀ a, a < s.i.toNat ∨ s.i.toNat + k < a → t.mem.read a = s.mem.read a) ∧
    (s.i.toNat < 80 → exec i s = .fault (.readOnlyWrite s.i.toNat s.aIns)) ∧
    (4096 ≤ s.i.toNat + k → exec i s = .fault (.outOfBounds (max s.i.toNat 4096) s.aIns)) := by
  refine ⟨fun hlo hhi => ?_, fun hlo => by rw [hexec, if_pos hlo], fun hhi => ?_⟩
  · have hend : s.i.toNat + bs.length ≤ 4096 := by omega
    refine ⟨s.storeBytes s.i.toNat bs, ?_, rfl, fun j hj => read_store_add hmem hend hj, fun a ha => ?_⟩
    · rw [hexec, if_neg hlo.not_gt, if_pos (by omega)]
    · exact Memory.read_store_outside hmem hend (by omega)
  · rw [hexec, if_neg (by omega), if_neg (by omega)]

/-- Settles O26: the store's answers for the three digits, each of which fits a byte. -/
theorem bcdStoresThreeDigits : Obligations.BcdStoresThreeDigits := by
  intro x s hmem
  have hx := (s.reg x).isLt
  obtain ⟨hstore, hfaults⟩ := store_answers (i := .ldB x) (bs := bcdDigits (s.reg x)) (k := 2) hmem rfl (by omega) (execLdB_eq x s)
  refine ⟨fun hlo hhi => ?_, hfaults⟩
  obtain ⟨t, ht, hframe, hread, houtside⟩ := hstore hlo hhi
  have hdigit {j n : Nat} (hj : j < 3) (hb : (bcdDigits (s.reg x))[j] = BitVec.ofNat 8 n) (hn : n < 256) :
      (t.mem.read (s.i.toNat + j)).toNat = n := by
    rw [hread j hj, hb, BitVec.toNat_ofNat, Nat.mod_eq_of_lt hn]
  exact ⟨t, ht, hframe, hdigit (j := 0) (by omega) rfl (by omega), hdigit (j := 1) (by omega) rfl (by omega),
    hdigit (j := 2) (by omega) rfl (by omega), houtside⟩

/-- Settles O27: the store's answers for the registers up to VX. -/
theorem blockStoreWritesRegisters : Obligations.BlockStoreWritesRegisters := by
  intro x s hmem
  have hlen : (s.regsUpTo x).length = x.val + 1 := length_regsUpTo s x
  obtain ⟨hstore, hfaults⟩ := store_answers (i := .ldStore x) hmem hlen x.isLt (execLdStore_eq x s)
  refine ⟨fun hlo hhi => ?_, hfaults⟩
  obtain ⟨t, ht, hframe, hread, houtside⟩ := hstore hlo hhi
  refine ⟨t, ht, hframe, fun k hk => ?_, houtside⟩
  rw [hread k.val (by omega), getElem_regsUpTo]

/-! ## Registers loaded from I -/

/-- FX65 where the bytes it reads lie in memory (43_index_memory.md R246). -/
theorem exec_ldLoad_next {x : Reg} {s : State} (h : s.i.toNat + x.val < 4096) :
    exec (.ldLoad x) s = .next (s.loadRegs x s.i.toNat) :=
  (execLdLoad_eq x s).trans (if_pos h)

/-- Settles O28: the load's guard is the last address inside memory. -/
theorem blockLoadReadsRegisters : Obligations.BlockLoadReadsRegisters := by
  refine fun x s => ⟨fun hin => ?_, fun hout => (execLdLoad_eq x s).trans (if_neg (by omega))⟩
  exact ⟨_, exec_ldLoad_next hin, rfl, fun _ => rfl, fun q => s.reg_loadRegs x q s.i.toNat⟩

/-- A load of the bytes that the registers already hold changes nothing. -/
theorem loadRegs_eq_self {s : State} {x : Reg} {a : Nat} (h : ∀ k : Reg, k.val ≤ x.val → s.mem.read (a + k.val) = s.reg k) :
    s.loadRegs x a = s := by
  have hv : (s.loadRegs x a).v = s.v := by
    refine Vector.ext fun k hk => ?_
    have hreg := s.reg_loadRegs x ⟨k, hk⟩ a
    rwa [ite_eq_right_iff.2 (h ⟨k, hk⟩)] at hreg
  calc s.loadRegs x a = { s with v := (s.loadRegs x a).v } := rfl
    _ = s := by rw [hv]

/-- Settles O29: FX55 leaves the registers' own bytes where FX65 reads. -/
theorem blockStoreThenLoadGivesBack : Obligations.BlockStoreThenLoadGivesBack := by
  intro x s t hmem h
  obtain ⟨-, hend, rfl⟩ := exec_next h
  rw [exec_ldLoad_next (s := s.storeBytes s.i.toNat (s.regsUpTo x)) hend]
  exact congrArg Host.Outcome.next (loadRegs_eq_self fun _ hk => read_storeRegs hmem hend hk)

/-! ## Writes of I -/

/-- An instruction that sets I to w changes I alone (43_index_memory.md R241 to R243). -/
theorem setI_answers {i : Instr} {s : State} {n : Nat} (w : Word) (h : exec i s = .next (s.setI w)) (hw : w.toNat = n) :
    ∃ t, exec i s = .next t ∧ t.i.toNat = n ∧ t = { s with i := t.i } ∧ ∀ a, t.mem.read a = s.mem.read a :=
  ⟨_, h, hw, rfl, fun _ => rfl⟩

/-- A word plus a byte, modulo 65536 (43_index_memory.md R242). -/
theorem toNat_add_zext16 (w : Word) (b : Byte) : (w + zext16 b).toNat = (w.toNat + b.toNat) % 65536 := by
  rw [BitVec.toNat_add, zext16, BitVec.zeroExtend, BitVec.toNat_setWidth_of_le (by decide)]

/-- The glyph's address fits 16 bits (43_index_memory.md R243). -/
theorem toNat_glyphAddr (a : Byte) : (glyphAddr a).toNat = 5 * (a.toNat % 16) :=
  (BitVec.toNat_ofNat _ 16).trans (Nat.mod_eq_of_lt (by simp only [Config.glyphBytes]; omega))

/-- Settles O25: each rule is one write of I, with its operand's value. -/
theorem indexInstructionsWriteI : Obligations.IndexInstructionsWriteI := by
  intro addr x s writes
  exact ⟨setI_answers addr rfl rfl,
    setI_answers (s.i + zext16 (s.reg x)) rfl (toNat_add_zext16 _ _),
    setI_answers (glyphAddr (s.reg x)) rfl (toNat_glyphAddr _)⟩

end Sys2Proof.Proofs
end

section
/-! The statements of 44_display.md: the clear screen, the pixels and the flag of one draw, and what a second identical draw takes back. -/

namespace Sys2Proof.Proofs

open Sys2Proof Sys2Proof.Machine

/-- Settles O31: the rule replaces the framebuffer by the blank one. -/
theorem clearScreenClearsEveryPixel : Obligations.ClearScreenClearsEveryPixel :=
  fun s => ⟨s.setFb Framebuffer.blank, rfl, fun p _ => cell_blank p, rfl, fun _ => rfl⟩

/-! ## Drawing a list of distinct pixels -/

section
variable {ps : List Nat} (hps : ps.Nodup) (hlt : ∀ p ∈ ps, p < 2048)
include hps hlt

theorem cell_draw_of_mem (f : Framebuffer) {p : Nat} (hp : p ∈ ps) : (draw f ps).1.cell p = !f.cell p := by
  rw [(draw_eq f hps hlt).1, if_pos hp]

theorem cell_draw_of_not_mem (f : Framebuffer) {p : Nat} (hp : p ∉ ps) : (draw f ps).1.cell p = f.cell p := by
  rw [(draw_eq f hps hlt).1, if_neg hp]

/-- A collision is a pixel that was set (44_display.md R262, R268). -/
theorem collision_iff (f : Framebuffer) : (draw f ps).2 = true ↔ ∃ p ∈ ps, f.cell p = true := by
  rw [(draw_eq f hps hlt).2, List.any_eq_true]

/-- A second draw flips every pixel back. -/
theorem draw_draw (f : Framebuffer) : (draw (draw f ps).1 ps).1 = f := by
  refine Framebuffer.ext_cells fun p _ => ?_
  by_cases hp : p ∈ ps
  · rw [cell_draw_of_mem hps hlt _ hp, cell_draw_of_mem hps hlt f hp, Bool.not_not]
  · rw [cell_draw_of_not_mem hps hlt _ hp, cell_draw_of_not_mem hps hlt f hp]

/-- A second draw collides at the pixels that were clear before the first: those the first has set. -/
theorem second_collision_iff (f : Framebuffer) :
    (draw (draw f ps).1 ps).2 = true ↔ ∃ p ∈ ps, f.cell p = false := by
  rw [collision_iff hps hlt]
  refine exists_congr fun p => and_congr_right fun hp => ?_
  rw [cell_draw_of_mem hps hlt f hp, Bool.not_eq_true']

end

/-! ## The sprite of a state -/

/-- The pixels that DXYN flips from the state s (44_display.md R265). -/
def sprite (x y : Reg) (n : Nat) (s : State) : List Nat :=
  spritePixels s.mem (s.reg x).toNat (s.reg y).toNat s.i.toNat n

/-- The state after the pixels ps are drawn and the collision is in VF (44_display.md R265). -/
def drawn (ps : List Nat) (s : State) : State := (s.setFb (draw s.fb ps).1).setFlag (draw s.fb ps).2

theorem exec_drw_next {x y : Reg} {n : Nat} {s : State} (h : n = 0 ∨ s.i.toNat + n ≤ 4096) :
    exec (.drw x y n) s = .next (drawn (sprite x y n s) s) :=
  (execDrw_eq x y n s).trans (if_pos h)

theorem sprite_nodup {x y : Reg} {n : Nat} (hi : (Instr.drw x y n).wellFormed = true) (s : State) :
    (sprite x y n s).Nodup :=
  spritePixels_nodup _ _ _ _ (by simpa [Instr.wellFormed, rowsOk] using hi)

theorem sprite_lt (x y : Reg) (n : Nat) (s : State) : ∀ p ∈ sprite x y n s, p < 2048 :=
  fun _ => spritePixels_lt

/-- A draw moves neither the rows nor, with X and Y not 15, the origin. -/
theorem sprite_drawn {x y : Reg} (hx : x ≠ 15) (hy : y ≠ 15) (n : Nat) (ps : List Nat) (s : State) :
    sprite x y n (drawn ps s) = sprite x y n s := by
  simp only [sprite, drawn, reg_setFlag_ne _ _ hx, reg_setFlag_ne _ _ hy, State.setFlag_mem, State.setFlag_i,
    State.setFb_mem, State.setFb_i, State.setFb_reg]

/-- Rows with no 1 bit light no pixel. -/
theorem sprite_eq_nil {x y : Reg} {n : Nat} {s : State} (h : ∀ row < n, s.mem.read (s.i.toNat + row) = 0) :
    sprite x y n s = [] := by
  refine List.eq_nil_iff_forall_not_mem.2 fun p hp => ?_
  obtain ⟨row, hrow, col, -, hbit, -⟩ := mem_spritePixels.1 hp
  simp [h row hrow] at hbit

/-- A byte that is not 0 has a 1 bit, counted from its most significant one. -/
theorem exists_col_of_ne_zero {b : Byte} (h : b ≠ 0) : ∃ col < 8, b.getLsbD (7 - col) = true := by
  by_contra hnone
  push Not at hnone
  refine h (BitVec.eq_of_getLsbD_eq fun k hk => ?_)
  have hbit := hnone (7 - k) (by omega)
  rw [show 7 - (7 - k) = k by omega] at hbit
  simpa using hbit

/-- A row with a 1 bit lights a pixel. -/
theorem exists_mem_sprite {x y : Reg} {n row : Nat} {s : State} (hrow : row < n)
    (h : s.mem.read (s.i.toNat + row) ≠ 0) : ∃ p, p ∈ sprite x y n s := by
  obtain ⟨col, hcol, hbit⟩ := exists_col_of_ne_zero h
  exact ⟨_, mem_spritePixels.2 ⟨row, hrow, col, hcol, hbit, rfl⟩⟩

/-! ## The flag of a draw -/

theorem reg_drawn_vf (ps : List Nat) (s : State) : (drawn ps s).reg 15 = flagByte (draw s.fb ps).2 :=
  State.reg_setFlag_vf _ _

/-- VF is 1 where the draw collides and 0 where it does not, whatever a collision is known to mean (44_display.md R262, R268). -/
theorem reg_drawn_vf_of_iff {ps : List Nat} {s : State} {P : Prop} (h : (draw s.fb ps).2 = true ↔ P) :
    (P → (drawn ps s).reg 15 = 1) ∧ (¬P → (drawn ps s).reg 15 = 0) := by
  rw [reg_drawn_vf, ← h]
  cases (draw s.fb ps).2 <;> simp [flagByte]

/-- Quantifying over a list of pixels is quantifying over the screen. -/
theorem exists_mem_iff_exists_lt {ps : List Nat} {lit Q : Nat → Prop} (hlt : ∀ p ∈ ps, p < 2048)
    (hlit : ∀ p, lit p ↔ p ∈ ps) : (∃ p ∈ ps, Q p) ↔ ∃ p < 2048, lit p ∧ Q p := by
  simp only [hlit]
  exact exists_congr fun p => ⟨fun ⟨hp, hq⟩ => ⟨hlt p hp, hp, hq⟩, And.right⟩

/-! ## One draw and two -/

/-- Settles O32: the draw's cells and collision, for the pixels of the sprite. -/
theorem drawFlipsSpritePixels : Obligations.DrawFlipsSpritePixels := by
  intro x y n s hi lit
  have hlit (p : Nat) : lit p ↔ p ∈ sprite x y n s := mem_spritePixels.symm
  have hps := sprite_nodup hi s
  have hlt := sprite_lt x y n s
  obtain ⟨hone, hzero⟩ := reg_drawn_vf_of_iff
    ((collision_iff hps hlt s.fb).trans (exists_mem_iff_exists_lt hlt hlit))
  refine ⟨fun hin => ⟨_, exec_drw_next hin, fun p _ => ⟨fun hp => ?_, fun hp => ?_⟩, hone, hzero,
    fun q hq => reg_setFlag_ne _ _ hq, rfl, fun _ => rfl⟩, fun hn hout => ?_⟩
  · exact cell_draw_of_mem hps hlt s.fb ((hlit p).1 hp)
  · exact cell_draw_of_not_mem hps hlt s.fb (mt (hlit p).2 hp)
  · exact (execDrw_eq x y n s).trans (if_neg (by omega))

/-- Settles O33: the second draw has the sprite of the first, so it flips the same pixels back and collides where they were clear. -/
theorem drawTwiceRestores : Obligations.DrawTwiceRestores := by
  intro x y n s t hi hx hy ht lit
  obtain ⟨hin, rfl⟩ : (n = 0 ∨ s.i.toNat + n ≤ 4096) ∧ t = drawn (sprite x y n s) s := exec_next ht
  have hlit (p : Nat) : lit p ↔ p ∈ sprite x y n s := mem_spritePixels.symm
  have hps := sprite_nodup hi s
  have hlt := sprite_lt x y n s
  have hsecond : exec (.drw x y n) (drawn (sprite x y n s) s) =
      .next (drawn (sprite x y n s) (drawn (sprite x y n s) s)) := by
    rw [exec_drw_next (s := drawn (sprite x y n s) s) hin, sprite_drawn hx hy]
  obtain ⟨hone, hzero⟩ := reg_drawn_vf_of_iff (s := drawn (sprite x y n s) s)
    ((second_collision_iff hps hlt s.fb).trans (exists_mem_iff_exists_lt hlt hlit))
  refine ⟨_, hsecond, draw_draw hps hlt s.fb, hone, hzero, ?_, fun hrows => ?_⟩
  · rintro ⟨row, hrow, hne⟩ hclear
    obtain ⟨p, hp⟩ := exists_mem_sprite hrow hne
    exact hone ⟨p, hlt p hp, (hlit p).2 hp, hclear p (hlt p hp)⟩
  · rw [sprite_eq_nil hrows]
    exact ⟨rfl, reg_drawn_vf [] s, reg_drawn_vf [] (drawn [] s)⟩

end Sys2Proof.Proofs
end

section
/-! The statements of 45_timers_keys.md: the skips on a key, the timer transfers, the key wait, the timer tick and a run of timer ticks, and the host's write of a key. -/

namespace Sys2Proof.Proofs

open Sys2Proof Sys2Proof.Machine

/-! ## Skips on a key -/

theorem exec_skp_of_keyIndex {s : State} {x k : Reg} (hk : (s.reg x).toNat = k.val) :
    exec (.skp x) s = .next (s.skipIf (s.pressed k)) := by
  change execSkp x s = _
  rw [execSkp, keyIndex_eq_some.2 hk]

theorem exec_sknp_of_keyIndex {s : State} {x k : Reg} (hk : (s.reg x).toNat = k.val) :
    exec (.sknp x) s = .next (s.skipIf (!s.pressed k)) := by
  change execSknp x s = _
  rw [execSknp, keyIndex_eq_some.2 hk]

/-- Settles O34: both rules are one skip on the level of the same key, and neither finds a key for a byte above 15. -/
theorem keySkipsTestTheKey : Obligations.KeySkipsTestTheKey := by
  refine fun x s => ⟨fun k hk => ⟨?_, ?_⟩, fun hbad => ?_⟩
  · rw [exec_skp_of_keyIndex hk]
    exact skipIf_answers rfl
  · rw [exec_sknp_of_keyIndex hk]
    refine skipIf_answers ?_
    unfold State.pressed
    cases s.key[k.val] <;> rfl
  · have hlt : ¬(s.reg x).toNat < 16 := by omega
    exact ⟨(execSkp_eq x s).trans (dif_neg hlt), (execSknp_eq x s).trans (dif_neg hlt)⟩

/-! ## Timer transfers -/

/-- Settles O35: each rule is one write, of VX or of a timer. -/
theorem timerTransfersMoveOneByte : Obligations.TimerTransfersMoveOneByte := fun x s =>
  ⟨⟨s.setReg x s.dt, rfl, s.reg_setReg_same x s.dt, fun _ hq => s.reg_setReg_ne s.dt hq, rfl, fun _ => rfl⟩,
    ⟨s.setDt (s.reg x), rfl, rfl, rfl, fun _ => rfl⟩,
    ⟨s.setSt (s.reg x), rfl, rfl, rfl, fun _ => rfl⟩⟩

/-! ## Key wait -/

/-- Settles O36: the rule blocks when the list of pressed keys is empty, and else reports the free key, which is pressed. -/
theorem keyWaitBlocksOrReportsAPressedKey : Obligations.KeyWaitBlocksOrReportsAPressedKey := by
  refine fun x s => ⟨fun hnone => execLdVxK_blocked x (pressedKeys_eq_nil.2 hnone), fun ⟨k, hk⟩ => ?_⟩
  have hkeys : s.pressedKeys ≠ [] := pressedKeys_ne_nil hk
  refine ⟨_, execLdVxK_completes x hkeys, ⟨s.freeKey, freeKey_pressed hkeys, ?_⟩, rfl,
    fun q hq => s.reg_setReg_ne _ hq, rfl, fun _ => rfl⟩
  exact (congrArg BitVec.toNat (s.reg_setReg_same x _)).trans (toNat_keyByte s.freeKey)

/-! ## Timer ticks -/

theorem tickTimers_dt (s : State) : (tickTimers s).2.dt.toNat = s.dt.toNat - 1 := timerDown_toNat s.dt

theorem tickTimers_st (s : State) : (tickTimers s).2.st.toNat = s.st.toNat - 1 := timerDown_toNat s.st

theorem tickTimers_beep_iff (s : State) : (tickTimers s).1 = true ↔ s.st.toNat = 1 :=
  beq_iff_eq.trans (BitVec.toNat_inj (y := 1#8)).symm

/-- Settles O39: the tick writes the two timers, each by truncated subtraction. -/
theorem timerTickCountsDown : Obligations.TimerTickCountsDown := fun s =>
  ⟨tickTimers_dt s, tickTimers_st s, tickTimers_beep_iff s, rfl⟩

/-- The state after n timer ticks in a row (45_timers_keys.md R291). -/
def afterTimerTicks (s : State) (n : Nat) : State := (fun u : State => (tickTimers u).2)^[n] s

theorem afterTimerTicks_succ (s : State) (n : Nat) :
    afterTimerTicks s (n + 1) = (tickTimers (afterTimerTicks s n)).2 :=
  Function.iterate_succ_apply' _ n s

theorem afterTimerTicks_dt (s : State) (n : Nat) : (afterTimerTicks s n).dt.toNat = s.dt.toNat - n := by
  induction n with
  | zero => rfl
  | succ n ih => rw [afterTimerTicks_succ, tickTimers_dt, ih, Nat.sub_sub]

theorem afterTimerTicks_st (s : State) (n : Nat) : (afterTimerTicks s n).st.toNat = s.st.toNat - n := by
  induction n with
  | zero => rfl
  | succ n ih => rw [afterTimerTicks_succ, tickTimers_st, ih, Nat.sub_sub]

/-- The tick after n ticks is the one that takes ST to 0 just when ST started at n + 1 (45_timers_keys.md R292). -/
theorem beep_afterTimerTicks_iff (s : State) (n : Nat) :
    (tickTimers (afterTimerTicks s n)).1 = true ↔ s.st.toNat = n + 1 := by
  rw [tickTimers_beep_iff, afterTimerTicks_st]
  omega

/-- Of the first k timer ticks one beeps if ST started in 1..k, and none otherwise (45_timers_keys.md R292). -/
theorem length_beeps (s : State) (k : Nat) :
    ((List.range k).filter fun n => (tickTimers (afterTimerTicks s n)).1).length =
      if 0 < s.st.toNat ∧ s.st.toNat ≤ k then 1 else 0 := by
  rw [← List.countP_eq_length_filter]
  induction k with
  | zero => exact (if_neg (by omega)).symm
  | succ k ih =>
    rw [List.range_succ, List.countP_append, ih, List.countP_singleton]
    simp only [beep_afterTimerTicks_iff]
    split_ifs <;> omega

/-- Settles O40: the timers by induction on the ticks, and the beep by which tick it is. -/
theorem timerTicksReachZeroWithOneBeep : Obligations.TimerTicksReachZeroWithOneBeep := fun s k =>
  ⟨afterTimerTicks_dt s k, afterTimerTicks_st s k, length_beeps s k⟩

/-! ## The host's write of a key -/

/-- Settles O41: below 16 the operation is one write of the keypad, and from 16 on it has no step. -/
theorem setKeyWritesOneKey : Obligations.SetKeyWritesOneKey := by
  refine fun index b s => ⟨fun h => ⟨s.setKeyAt ⟨index, h⟩ b, dif_pos h, rfl, fun k => ?_⟩,
    fun h => dif_neg (not_lt.2 h)⟩
  exact (s.pressed_setKeyAt ⟨index, h⟩ k b).trans (by simp only [Fin.ext_iff]; rfl)

end Sys2Proof.Proofs
end

section
/-! The statements of 60_exceptions.md: which errors each instruction can raise, the address every error records, the state an error leaves, and the font region that no step changes. -/

namespace Sys2Proof.Proofs

open Sys2Proof Sys2Proof.Machine Sys2Proof.Config

/-! ## The state an error leaves -/

/-- A tick reports an error only where its run faults, and then leaves the state of 60_exceptions.md R316. -/
theorem eq_afterError_of_tick_error {p : ErrCommitPc} {d : Draws} {s t : State} {e : Fault}
    (h : tick p d s = .ok (.error e, t)) : t = afterError p s := by
  cases hrun : runTick (execWith d) s with
  | next u =>
    have hresult : (if u.await then TickResult.waiting else .ok) = .error e :=
      congrArg Prod.fst (Except.ok.inj ((tick_of_next hrun).symm.trans h))
    split at hresult <;> cases hresult
  | fault _ =>
    cases (tick_of_fault hrun).symm.trans h
    rfl
  | refused _ => cases (tick_of_refused hrun).symm.trans h

/-- Settles O45: the state is that of R316, whose pc advances just where the fetch succeeded and ERR_COMMIT_PC is advance. -/
theorem errorLeavesThePreTickState : Obligations.ErrorLeavesThePreTickState := by
  intro p d s t e h
  rw [eq_afterError_of_tick_error h, afterError_eq]
  refine ⟨rfl, fun hp => if_neg ?_, fun hp hadvance => if_pos ⟨hp, hadvance⟩, fun hrestore => if_neg ?_⟩
  · exact fun hc => absurd hc.1 (not_lt.2 hp)
  · exact fun hc => nomatch hrestore.symm.trans hc.2

/-! ## The errors of each instruction -/

/-- The address reported for an access of n bytes that does not fit memory is one of those it touches, outside memory (43_index_memory.md R247). -/
theorem exists_touched_outside {base n : Nat} (hn : n ≠ 0) (h : 4096 < base + n) :
    ∃ k < n, max base 4096 = base + k ∧ 4096 ≤ base + k :=
  ⟨max base 4096 - base, by omega, by omega, by omega⟩

/-- A store of k + 1 bytes at I fails below the font's end or past memory's (20_memory.md R73; 43_index_memory.md R247). -/
theorem store_fault {s u : State} {k : Nat} {e : Fault}
    (h : (if s.i.toNat < 80 then .fault (.readOnlyWrite s.i.toNat s.aIns)
      else if s.i.toNat + (k + 1) ≤ 4096 then .next u
      else .fault (.outOfBounds (max s.i.toNat 4096) s.aIns) : Host.Outcome State Fault Refusal) = .fault e) :
    (e = .readOnlyWrite s.i.toNat s.aIns ∧ s.i.toNat < 80) ∨
      ∃ j ≤ k, e = .outOfBounds (s.i.toNat + j) s.aIns ∧ 4096 ≤ s.i.toNat + j := by
  split_ifs at h with hlow hend
  · cases h
    exact .inl ⟨rfl, hlow⟩
  · cases h
    obtain ⟨j, hj, haddr, hout⟩ := exists_touched_outside (Nat.succ_ne_zero k) (not_le.1 hend)
    exact .inr ⟨j, Nat.le_of_lt_succ hj, by rw [haddr], hout⟩

/-- A skip on a key fails where VX is above 15, and records VX (45_timers_keys.md R281, R282). -/
theorem keySkip_fault {s : State} {x : Reg} {u : (s.reg x).toNat < 16 → State} {e : Fault}
    (h : (if hkey : (s.reg x).toNat < 16 then .next (u hkey)
      else .fault (.badKeyIndex (s.reg x) s.aIns) : Host.Outcome State Fault Refusal) = .fault e) :
    e = .badKeyIndex (s.reg x) s.aIns ∧ 15 < (s.reg x).toNat := by
  split_ifs at h with hkey
  cases h
  exact ⟨rfl, not_lt.1 hkey⟩

/-- Settles O46: the eight instructions with a check, each by its two ends; the rule of every other one always answers a next state. -/
theorem errorsOfEachInstruction : Obligations.ErrorsOfEachInstruction := by
  intro i s e h
  cases i with
  | ret =>
    by_cases hsp : s.sp.val = 0
    · cases (execRet_fault hsp).symm.trans h
      exact ⟨rfl, hsp⟩
    · cases (execRet_next hsp).symm.trans h
  | call addr =>
    obtain ⟨hsp, -⟩ | ⟨hsp, -⟩ := push_cases s s.pc
    · cases (execCall_fault addr hsp).symm.trans h
      exact ⟨rfl, hsp⟩
    · cases (execCall_next addr hsp).symm.trans h
  | drw x y n =>
    have hc := (execDrw_eq x y n s).symm.trans h
    split_ifs at hc with hfits
    cases hc
    obtain ⟨hn, hend⟩ := not_or.1 hfits
    obtain ⟨row, hrow, haddr, hout⟩ := exists_touched_outside hn (not_le.1 hend)
    exact ⟨row, hrow, by rw [haddr], hout⟩
  | skp x => exact keySkip_fault ((execSkp_eq x s).symm.trans h)
  | sknp x => exact keySkip_fault ((execSknp_eq x s).symm.trans h)
  | ldB x => exact store_fault ((execLdB_eq x s).symm.trans h)
  | ldStore x => exact store_fault ((execLdStore_eq x s).symm.trans h)
  | ldLoad x =>
    have hc := (execLdLoad_eq x s).symm.trans h
    split_ifs at hc with hend
    cases hc
    obtain ⟨k, hk, haddr, hout⟩ := exists_touched_outside (Nat.succ_ne_zero x.val) (not_le.1 hend)
    exact ⟨k, Nat.le_of_lt_succ hk, by rw [haddr], hout⟩
  | _ => cases h

/-! ## The address an error records -/

/-- Every error of an instruction's rule records the address of the instruction (60_exceptions.md R310). -/
theorem exec_fault_aIns {i : Instr} {s : State} {e : Fault} (h : exec i s = .fault e) : e.aIns = s.aIns := by
  have he := errorsOfEachInstruction i s e h
  cases i with
  | ret | call | skp | sknp =>
    obtain ⟨rfl, -⟩ := he
    rfl
  | drw | ldLoad =>
    obtain ⟨_, -, rfl, -⟩ := he
    rfl
  | ldB | ldStore =>
    obtain ⟨rfl, -⟩ | ⟨_, -, rfl, -⟩ := he <;> rfl
  | _ => exact he.elim

/-- Settles O47: the errors of the fetch and of the decode record pc, and the errors of an instruction's rule its own address, which is the pc before the fetch. -/
theorem everyErrorNamesItsInstruction : Obligations.EveryErrorNamesItsInstruction := by
  intro s e h
  obtain ⟨_, -, -, rfl, hrun⟩ | ⟨-, -, ⟨_, -, hrun⟩ | ⟨i, -, hrun⟩⟩ := runTick_cases exec s
  · cases hrun.symm.trans h
    rfl
  · cases hrun.symm.trans h
    rfl
  · exact (exec_fault_aIns (hrun.symm.trans h)).trans (aIns_afterFetch s)

/-! ## The font region -/

/-- Settles O50: the fetch leaves memory, and an instruction's rule keeps the font region. -/
theorem stepNeverChangesTheFont : Obligations.StepNeverChangesTheFont := by
  intro s t hmem h a ha
  obtain ⟨_, -, -, hrun⟩ := runTick_next h
  exact exec_keeps_fontRegion (s := (s.setPc (s.pc + 2)).setAwait false) hmem hrun ha

end Sys2Proof.Proofs
end

section
/-! The statements of 70_reset_and_hazards.md: the invariant after reset, the bytes `load` writes, and the word that `withFetchWord` places for the next step. -/

namespace Sys2Proof.Proofs

open Sys2Proof Sys2Proof.Machine Sys2Proof.Config

/-! ## Reset -/

/-- Settles O53: `new()` gives the invariant for every FONT, and reset differs from it in memory alone, which is canonical. -/
theorem invariantHoldsAtReset : Obligations.InvariantHoldsAtReset := by
  obtain ⟨-, hpc, hstack⟩ := (newCore_holdsFont defaultFont).inv
  exact ⟨⟨State.reset_memWf, hpc, hstack⟩, fun font => (newCore_holdsFont font).inv⟩

/-! ## load -/

/-- Settles O42: up to 3584 bytes end within memory, so the store writes each of them and nothing else; more have no step. -/
theorem loadWritesProgramBytesOnly : Obligations.LoadWritesProgramBytesOnly := by
  refine fun b s hmem => ⟨fun hlen => ?_, fun hlen => if_neg (not_le.2 hlen)⟩
  have hend : 0x200 + b.length ≤ 4096 := by omega
  exact ⟨s.storeBytes 0x200 b, if_pos hlen, rfl, fun k hk => read_store_add hmem hend hk,
    fun a ha => Memory.read_store_outside hmem hend ha⟩

/-! ## A word placed for the next fetch -/

/-- The two bytes of a word stored at pc are the word the next fetch assembles (20_memory.md R77; 40_interface_fetch_decode.md R151). -/
theorem wordAtPc_storeBytes {s : State} (w : Word) (hmem : s.mem.wf) (hp : s.pc.toNat < 4095) :
    (s.storeBytes s.pc.toNat [highByte w, lowByte w]).wordAtPc = w := by
  have hend : s.pc.toNat + [highByte w, lowByte w].length ≤ 4096 := Nat.succ_le_succ hp
  have hhigh := read_store_add (j := 0) hmem hend Nat.zero_lt_two
  have hlow := read_store_add (j := 1) hmem hend Nat.one_lt_two
  exact (congrArg₂ joinBytes hhigh hlow).trans (joinBytes_split w)

/-- `withFetchWord` stores the word's bytes at a pc an instruction can be fetched from: the state's own, or the entry point (log entry 7). -/
theorem withFetchWord_cases (s : State) (w : Word) :
    ∃ u : State, u.mem = s.mem ∧ u.pc.toNat < 4095 ∧
      s.withFetchWord 16 w.toNat = u.storeBytes u.pc.toNat [highByte w, lowByte w] := by
  have hw : BitVec.ofNat 16 (w.toNat % 2 ^ 16) = w := by
    rw [Nat.mod_eq_of_lt w.isLt, BitVec.ofNat_toNat, BitVec.setWidth_eq]
  unfold State.withFetchWord
  rw [hw]
  split_ifs with hp
  · exact ⟨s, rfl, hp, rfl⟩
  · exact ⟨s.setPc 0x200, rfl, show (0x200 : Word).toNat < 4095 by decide, rfl⟩

/-- Settles O10: the placed word is the one at pc, it decodes, and the step runs it. -/
theorem placedWordIsRun : Obligations.PlacedWordIsRun := by
  intro s w i hmem hd t
  obtain ⟨u, hu, hp, ht : t = _⟩ := withFetchWord_cases s w
  have hword : t.wordAtPc = w := ht ▸ wordAtPc_storeBytes w (hu ▸ hmem) hp
  exact stepRunsTheDecodedInstruction t i (ht ▸ hp) (hword ▸ hd)

end Sys2Proof.Proofs
end
